-- ==== Sys2Proof/Word.lean ====
section
/-! DEFINITION. The widths of the unit: bytes, display words, command words, responses, bus addresses,
and the bounded index spaces of `20_memory.md` rule R30. -/

namespace Sys2Proof

/-- An 8-bit operand, table entry, key byte or transport byte (R61, R34, R11, R7). -/
abbrev Byte := BitVec 8

/-- A command word `cmd` (R60). -/
abbrev Word := BitVec 32

/-- One display word of a slot (R10). -/
abbrev DispWord := BitVec 16

/-- The response of a command (R62). -/
abbrev Resp := BitVec 16

/-- A 7-bit bus address (R13). -/
abbrev BusAddr := BitVec 7

/-- A slot number `0..3` (R30). -/
abbrev SlotNo := Fin 4

/-- A local index `0..15`, of an LED or of a key (R31). -/
abbrev LocalIdx := Fin 16

/-- A flat index `0..63` (R32). -/
abbrev FlatIdx := Fin 64

/-- A coordinate `0..7` on one axis (R33). -/
abbrev Coord := Fin 8

/-- The display buffer of a slot: 8 words (R10). -/
abbrev DispBuf := Vector DispWord 8

/-- A key buffer, or the answer of a key-scan read: 6 bytes (R11, R47). -/
abbrev KeyBytes := Vector Byte 6

/-- A set of slot numbers: entry `k` says whether slot `k` is in it. -/
abbrev SlotSet := Vector Bool 4

end Sys2Proof
end

