-- ==== Sys2Proof/Config.lean ====
section
/-! DEFINITION. What an implementation fixes for a whole run (`00_scope.md` rule R5): the presence of the
slots, the four lookup tables and the two scan groups, as one plain record; the fixed markers of R5; the
one free value, the transport's answer to a key-scan read (R47); and the two named instantiations of the
tables, T0 (R41) and REF (R42), neither of which is a claim about the hardware. -/

namespace Sys2Proof

/-- The parameters of R5 that are fixed for a run. Every meaning reads them from the state's copy of this
record and none writes it (R16, R19), so a claim about every state is a claim about every choice of them. -/
structure Config where
  /-- `PRESENT[s]`, R16 -/
  present : SlotSet
  /-- `LED_LUT[0..15]`, R34 -/
  ledLut : Vector Byte 16
  /-- `KEY_LUT[0..15]`, R35 -/
  keyLut : Vector Byte 16
  /-- `I2XY[0..63]`, R38: abstract pairs, no packing is given (D28) -/
  i2xy : Vector (Coord × Coord) 64
  /-- `XY2I[x][y]`, R38 -/
  xy2i : Vector (Vector FlatIdx 8) 8
  /-- `PRIMARY_SET`, R117; `{0, 1}` in this spec -/
  primary : SlotSet
  /-- `SECONDARY_SET`, R118; `{2, 3}` in this spec -/
  secondary : SlotSet
deriving DecidableEq, Repr

/-- FREE VALUE (assumption log 5). The 6 bytes the transport hands back for the `n`-th key-scan read, where
the run supplies no answer of its own: any bytes, and nothing relates two of them (R47, U7). -/
opaque Config.oracleAnswer : Nat → KeyBytes

/-- `IDX_INVALID`, the marker of `XY2I` (R5, R141). -/
def Config.idxInvalid : Byte := 255#8

/-- Each half of `XY_INVALID`, the sentinel of `I2XY` (R5, R142). -/
def Config.xyInvalid : Byte := 255#8

/-- All four slots. -/
def SlotSet.all : SlotSet := #v[true, true, true, true]

/-- The value of `PRIMARY_SET` in this spec (R5, R117). -/
def SlotSet.primaryValue : SlotSet := #v[true, true, false, false]

/-- The value of `SECONDARY_SET` in this spec (R5, R118). -/
def SlotSet.secondaryValue : SlotSet := #v[false, false, true, true]

/-- `LED_LUT_T0[i] = ((i & 7) << 4) | (15 - i)` (R41). -/
def Config.ledLutT0 : Vector Byte 16 :=
  Vector.ofFn fun i => ((BitVec.ofNat 8 i.val &&& 7#8) <<< 4) ||| (15#8 - BitVec.ofNat 8 i.val)

/-- `KEY_LUT_T0[k] = ((k % 6) << 4) | (k % 8)` (R41). -/
def Config.keyLutT0 : Vector Byte 16 :=
  Vector.ofFn fun k => (BitVec.ofNat 8 (k.val % 6) <<< 4) ||| BitVec.ofNat 8 (k.val % 8)

/-- `I2XY_T0[i] = (i % 8, i / 8)` (R41). -/
def Config.i2xyT0 : Vector (Coord × Coord) 64 :=
  Vector.ofFn fun i => (Fin.ofNat 8 (i.val % 8), Fin.ofNat 8 (i.val / 8))

/-- `XY2I_T0[x][y] = 8*y + x` (R41). -/
def Config.xy2iT0 : Vector (Vector FlatIdx 8) 8 :=
  Vector.ofFn fun x => Vector.ofFn fun y => Fin.ofNat 64 (8 * y.val + x.val)

/-- Instantiation T0 (R41) with the given slots present: the spec's own synthetic tables, made so that
examples can be concrete; not the hardware's wiring. -/
def Config.t0 (present : SlotSet) : Config where
  present := present
  ledLut := Config.ledLutT0
  keyLut := Config.keyLutT0
  i2xy := Config.i2xyT0
  xy2i := Config.xy2iT0
  primary := SlotSet.primaryValue
  secondary := SlotSet.secondaryValue

/-- `I2XY_REF[i]` (R42): four 4×4 tiles. -/
def Config.i2xyRef : Vector (Coord × Coord) 64 :=
  Vector.ofFn fun i =>
    (Fin.ofNat 8 (i.val % 16 % 4 + 4 * (i.val / 16 % 2)), Fin.ofNat 8 (i.val % 16 / 4 + 4 * (i.val / 16 / 2)))

/-- `XY2I_REF[x][y]` (R42). -/
def Config.xy2iRef : Vector (Vector FlatIdx 8) 8 :=
  Vector.ofFn fun x => Vector.ofFn fun y =>
    Fin.ofNat 64 (16 * (2 * (y.val / 4) + x.val / 4) + 4 * (y.val % 4) + x.val % 4)

/-- Instantiation REF (R42), PRESUMED by the spec itself (from general knowledge, not in the source): a
second test instantiation, used by nothing but tests (assumption log 25). -/
def Config.ref (present : SlotSet) : Config where
  present := present
  ledLut := #v[0x3A, 0x37, 0x35, 0x34, 0x28, 0x29, 0x23, 0x24, 0x16, 0x1B, 0x11, 0x10, 0x0E, 0x0D, 0x0C, 0x02]
  keyLut := #v[0x07, 0x04, 0x02, 0x22, 0x05, 0x06, 0x00, 0x01, 0x03, 0x10, 0x30, 0x21, 0x13, 0x12, 0x11, 0x31]
  i2xy := Config.i2xyRef
  xy2i := Config.xy2iRef
  primary := SlotSet.primaryValue
  secondary := SlotSet.secondaryValue

end Sys2Proof
end

