-- ==== Sys2Proof/Syntax.lean ====
section
/-! DEFINITION. The command set: one constructor per row of `spec/opcode_table.json` (R63), with the operand
fields that row uses; the mnemonics; and the assembler line of R69. -/

namespace Sys2Proof

/-- A command (R9, R63). Each argument is the full 8-bit operand field (R61), in field order. -/
inductive Instr where
  /-- `D_INIT s, addr, brightness` (R81) -/
  | dInit (slot addr brightness : Byte)
  /-- `D_BRIGHT s, level` (R82) -/
  | dBright (slot level : Byte)
  /-- `D_BLINK s, rate` (R83) -/
  | dBlink (slot rate : Byte)
  /-- `D_FLUSH s` (R94) -/
  | dFlush (slot : Byte)
  /-- `D_CLEAR s` (R95) -/
  | dClear (slot : Byte)
  /-- `D_SCAN s` (R101) -/
  | dScan (slot : Byte)
  /-- `D_ISLED s, i` (R91) -/
  | dIsLed (slot index : Byte)
  /-- `D_SETLED s, i` (R92) -/
  | dSetLed (slot index : Byte)
  /-- `D_CLRLED s, i` (R93) -/
  | dClrLed (slot index : Byte)
  /-- `D_ISPRESSED s, k` (R102) -/
  | dIsPressed (slot key : Byte)
  /-- `D_WASPRESSED s, k` (R103) -/
  | dWasPressed (slot key : Byte)
  /-- `D_JUSTPRESSED s, k` (R104) -/
  | dJustPressed (slot key : Byte)
  /-- `D_JUSTRELEASED s, k` (R105) -/
  | dJustReleased (slot key : Byte)
  /-- `G_BRIGHT level` (R112) -/
  | gBright (level : Byte)
  /-- `G_BLINK rate` (R113) -/
  | gBlink (rate : Byte)
  /-- `G_FLUSH` (R114) -/
  | gFlush
  /-- `G_CLEAR` (R115) -/
  | gClear
  /-- `G_SCAN` (R116) -/
  | gScan
  /-- `G_SCANP` (R117) -/
  | gScanP
  /-- `G_SCANS` (R118) -/
  | gScanS
  /-- `G_ISLED k` (R119) -/
  | gIsLed (index : Byte)
  /-- `G_SETLED k` (R120) -/
  | gSetLed (index : Byte)
  /-- `G_CLRLED k` (R121) -/
  | gClrLed (index : Byte)
  /-- `G_ISPRESSED k` (R122) -/
  | gIsPressed (key : Byte)
  /-- `G_WASPRESSED k` (R123) -/
  | gWasPressed (key : Byte)
  /-- `G_JUSTPRESSED k` (R124) -/
  | gJustPressed (key : Byte)
  /-- `G_JUSTRELEASED k` (R125) -/
  | gJustReleased (key : Byte)
  /-- `XY2I x, y` (R141) -/
  | xy2i (x y : Byte)
  /-- `I2XY k` (R142) -/
  | i2xy (index : Byte)
deriving DecidableEq, Repr

/-- The mnemonic of R63. -/
def Instr.mnemonic : Instr → String
  | .dInit _ _ _ => "D_INIT"
  | .dBright _ _ => "D_BRIGHT"
  | .dBlink _ _ => "D_BLINK"
  | .dFlush _ => "D_FLUSH"
  | .dClear _ => "D_CLEAR"
  | .dScan _ => "D_SCAN"
  | .dIsLed _ _ => "D_ISLED"
  | .dSetLed _ _ => "D_SETLED"
  | .dClrLed _ _ => "D_CLRLED"
  | .dIsPressed _ _ => "D_ISPRESSED"
  | .dWasPressed _ _ => "D_WASPRESSED"
  | .dJustPressed _ _ => "D_JUSTPRESSED"
  | .dJustReleased _ _ => "D_JUSTRELEASED"
  | .gBright _ => "G_BRIGHT"
  | .gBlink _ => "G_BLINK"
  | .gFlush => "G_FLUSH"
  | .gClear => "G_CLEAR"
  | .gScan => "G_SCAN"
  | .gScanP => "G_SCANP"
  | .gScanS => "G_SCANS"
  | .gIsLed _ => "G_ISLED"
  | .gSetLed _ => "G_SETLED"
  | .gClrLed _ => "G_CLRLED"
  | .gIsPressed _ => "G_ISPRESSED"
  | .gWasPressed _ => "G_WASPRESSED"
  | .gJustPressed _ => "G_JUSTPRESSED"
  | .gJustReleased _ => "G_JUSTRELEASED"
  | .xy2i _ _ => "XY2I"
  | .i2xy _ => "I2XY"

/-- The operands a command uses, in field order `a`, `b`, `c` (R63, R69). -/
def Instr.operands : Instr → List Byte
  | .dInit a b c => [a, b, c]
  | .dBright a b => [a, b]
  | .dBlink a b => [a, b]
  | .dFlush a => [a]
  | .dClear a => [a]
  | .dScan a => [a]
  | .dIsLed a b => [a, b]
  | .dSetLed a b => [a, b]
  | .dClrLed a b => [a, b]
  | .dIsPressed a b => [a, b]
  | .dWasPressed a b => [a, b]
  | .dJustPressed a b => [a, b]
  | .dJustReleased a b => [a, b]
  | .gBright b => [b]
  | .gBlink b => [b]
  | .gFlush => []
  | .gClear => []
  | .gScan => []
  | .gScanP => []
  | .gScanS => []
  | .gIsLed b => [b]
  | .gSetLed b => [b]
  | .gClrLed b => [b]
  | .gIsPressed b => [b]
  | .gWasPressed b => [b]
  | .gJustPressed b => [b]
  | .gJustReleased b => [b]
  | .xy2i b c => [b, c]
  | .i2xy b => [b]

/-- The assembler line of a command (R69): its mnemonic, then its used operands in decimal. -/
def Instr.asm (i : Instr) : String :=
  match i.operands with
  | [] => i.mnemonic
  | ops => i.mnemonic ++ " " ++ ", ".intercalate (ops.map fun b => toString b.toNat)

/-- The blink rates by name (R83, R70). The numbers are the spec's list order (D14, log 18): the unit passes
the number through, so only the names depend on it. -/
inductive BlinkRate where
  | off | hz2 | hz1 | hz0_5
deriving DecidableEq, Repr

/-- The operand value of a rate symbol: `OFF` = 0, `HZ2` = 1, `HZ1` = 2, `HZ0_5` = 3 (R70). -/
def BlinkRate.code : BlinkRate → Byte
  | .off => 0#8
  | .hz2 => 1#8
  | .hz1 => 2#8
  | .hz0_5 => 3#8

end Sys2Proof
end

