-- ==== Sys2Proof/WellFormed.lean ====
section
/-! DEFINITION. Well-formedness. A command needs no check of its own: every value of every 8-bit operand is
admitted (R61, R151), and the constructors of `Instr` hold nothing else. What the spec does check, once and
before the run, is the configuration (R36, R37, R39, R16, R157). -/

namespace Sys2Proof

/-- R36: (a) every entry of `LED_LUT` names a word `0..7`; (b) the 16 entries differ pairwise. -/
abbrev Config.LedLutOk (c : Config) : Prop :=
  (∀ i : LocalIdx, c.ledLut[i].toNat / 16 ≤ 7) ∧
  ∀ i j : LocalIdx, c.ledLut[i] = c.ledLut[j] → i = j

/-- R37: (a) every entry of `KEY_LUT` names a byte `0..5` and a bit `0..7`; (b) the 16 entries differ pairwise. -/
abbrev Config.KeyLutOk (c : Config) : Prop :=
  (∀ k : LocalIdx, c.keyLut[k].toNat / 16 ≤ 5 ∧ c.keyLut[k].toNat % 16 ≤ 7) ∧
  ∀ j k : LocalIdx, c.keyLut[j] = c.keyLut[k] → j = k

/-- R39: the coordinate tables are mutual inverses. -/
abbrev Config.CoordTablesOk (c : Config) : Prop :=
  (∀ x y : Coord, c.i2xy[c.xy2i[x][y]] = (x, y)) ∧
  ∀ i : FlatIdx, c.xy2i[c.i2xy[i].1][c.i2xy[i].2] = i

/-- R16: at least one slot is present. -/
abbrev Config.SomePresent (c : Config) : Prop :=
  ∃ k : SlotNo, c.present[k] = true

/-- The configurations a run may start with (R157: with any other the model refuses to start at all). -/
def Config.wellFormed (c : Config) : Bool :=
  decide (c.LedLutOk ∧ c.KeyLutOk ∧ c.CoordTablesOk ∧ c.SomePresent)

end Sys2Proof
end

