-- ==== Sys2Proof/Decode.lean ====
section
/-! DEFINITION. The decoder of a 32-bit command word (R60 to R68), total, refusing a reserved opcode by name; after it
the encoder of R69, the mask of the bits a command uses (R63, R64), and the host's reading of a table word. -/

namespace Sys2Proof

/-- Why a word has no command. -/
inductive DecodeError where
  /-- its `op` is none of the 29 of R63 (R65) -/
  | reservedOpcode (op : Byte)
deriving DecidableEq, Repr

/-- `cmd[31:24]` (R60). -/
def fieldOp (w : Word) : Byte := w.extractLsb' 24 8

/-- `cmd[23:16]` (R60). -/
def fieldA (w : Word) : Byte := w.extractLsb' 16 8

/-- `cmd[15:8]` (R60). -/
def fieldB (w : Word) : Byte := w.extractLsb' 8 8

/-- `cmd[7:0]` (R60). -/
def fieldC (w : Word) : Byte := w.extractLsb' 0 8

/-- R63 and R68: the command a word stands for, by its top 8 bits; R64: the fields it does not use are ignored;
R65: every other `op` is reserved. The opcode numbers are the spec's own choice (D3, log 16). -/
def decode (w : Word) : Except DecodeError Instr :=
  match (fieldOp w).toNat with
  | 0x10 => .ok (.dInit (fieldA w) (fieldB w) (fieldC w))
  | 0x11 => .ok (.dBright (fieldA w) (fieldB w))
  | 0x12 => .ok (.dBlink (fieldA w) (fieldB w))
  | 0x13 => .ok (.dFlush (fieldA w))
  | 0x14 => .ok (.dClear (fieldA w))
  | 0x15 => .ok (.dScan (fieldA w))
  | 0x18 => .ok (.dIsLed (fieldA w) (fieldB w))
  | 0x19 => .ok (.dSetLed (fieldA w) (fieldB w))
  | 0x1A => .ok (.dClrLed (fieldA w) (fieldB w))
  | 0x1C => .ok (.dIsPressed (fieldA w) (fieldB w))
  | 0x1D => .ok (.dWasPressed (fieldA w) (fieldB w))
  | 0x1E => .ok (.dJustPressed (fieldA w) (fieldB w))
  | 0x1F => .ok (.dJustReleased (fieldA w) (fieldB w))
  | 0x21 => .ok (.gBright (fieldB w))
  | 0x22 => .ok (.gBlink (fieldB w))
  | 0x23 => .ok .gFlush
  | 0x24 => .ok .gClear
  | 0x25 => .ok .gScan
  | 0x26 => .ok .gScanP
  | 0x27 => .ok .gScanS
  | 0x28 => .ok (.gIsLed (fieldB w))
  | 0x29 => .ok (.gSetLed (fieldB w))
  | 0x2A => .ok (.gClrLed (fieldB w))
  | 0x2C => .ok (.gIsPressed (fieldB w))
  | 0x2D => .ok (.gWasPressed (fieldB w))
  | 0x2E => .ok (.gJustPressed (fieldB w))
  | 0x2F => .ok (.gJustReleased (fieldB w))
  | 0x30 => .ok (.xy2i (fieldB w) (fieldC w))
  | 0x31 => .ok (.i2xy (fieldB w))
  | _ => .error (.reservedOpcode (fieldOp w))

/-- `(op << 24) | (a << 16) | (b << 8) | c` (R69). -/
def command (op a b c : Byte) : Word := op ++ a ++ b ++ c

/-- The word of a command: unused fields are 0 (R64, R69). -/
def encode : Instr → Word
  | .dInit a b c => command 0x10 a b c
  | .dBright a b => command 0x11 a b 0
  | .dBlink a b => command 0x12 a b 0
  | .dFlush a => command 0x13 a 0 0
  | .dClear a => command 0x14 a 0 0
  | .dScan a => command 0x15 a 0 0
  | .dIsLed a b => command 0x18 a b 0
  | .dSetLed a b => command 0x19 a b 0
  | .dClrLed a b => command 0x1A a b 0
  | .dIsPressed a b => command 0x1C a b 0
  | .dWasPressed a b => command 0x1D a b 0
  | .dJustPressed a b => command 0x1E a b 0
  | .dJustReleased a b => command 0x1F a b 0
  | .gBright b => command 0x21 0 b 0
  | .gBlink b => command 0x22 0 b 0
  | .gFlush => command 0x23 0 0 0
  | .gClear => command 0x24 0 0 0
  | .gScan => command 0x25 0 0 0
  | .gScanP => command 0x26 0 0 0
  | .gScanS => command 0x27 0 0 0
  | .gIsLed b => command 0x28 0 b 0
  | .gSetLed b => command 0x29 0 b 0
  | .gClrLed b => command 0x2A 0 b 0
  | .gIsPressed b => command 0x2C 0 b 0
  | .gWasPressed b => command 0x2D 0 b 0
  | .gJustPressed b => command 0x2E 0 b 0
  | .gJustReleased b => command 0x2F 0 b 0
  | .xy2i b c => command 0x30 0 b c
  | .i2xy b => command 0x31 0 b 0

/-- The opcode of a command (R63). -/
def Instr.opcode : Instr → Byte
  | .dInit _ _ _ => 0x10
  | .dBright _ _ => 0x11
  | .dBlink _ _ => 0x12
  | .dFlush _ => 0x13
  | .dClear _ => 0x14
  | .dScan _ => 0x15
  | .dIsLed _ _ => 0x18
  | .dSetLed _ _ => 0x19
  | .dClrLed _ _ => 0x1A
  | .dIsPressed _ _ => 0x1C
  | .dWasPressed _ _ => 0x1D
  | .dJustPressed _ _ => 0x1E
  | .dJustReleased _ _ => 0x1F
  | .gBright _ => 0x21
  | .gBlink _ => 0x22
  | .gFlush => 0x23
  | .gClear => 0x24
  | .gScan => 0x25
  | .gScanP => 0x26
  | .gScanS => 0x27
  | .gIsLed _ => 0x28
  | .gSetLed _ => 0x29
  | .gClrLed _ => 0x2A
  | .gIsPressed _ => 0x2C
  | .gWasPressed _ => 0x2D
  | .gJustPressed _ => 0x2E
  | .gJustReleased _ => 0x2F
  | .xy2i _ _ => 0x30
  | .i2xy _ => 0x31

/-- The bits of the word that a command uses: its `op` and the fields of R63's column "Uses". -/
def Instr.usedMask : Instr → Word
  | .dInit _ _ _ => 0xFFFFFFFF
  | .dBright _ _ => 0xFFFFFF00
  | .dBlink _ _ => 0xFFFFFF00
  | .dFlush _ => 0xFFFF0000
  | .dClear _ => 0xFFFF0000
  | .dScan _ => 0xFFFF0000
  | .dIsLed _ _ => 0xFFFFFF00
  | .dSetLed _ _ => 0xFFFFFF00
  | .dClrLed _ _ => 0xFFFFFF00
  | .dIsPressed _ _ => 0xFFFFFF00
  | .dWasPressed _ _ => 0xFFFFFF00
  | .dJustPressed _ _ => 0xFFFFFF00
  | .dJustReleased _ _ => 0xFFFFFF00
  | .gBright _ => 0xFF00FF00
  | .gBlink _ => 0xFF00FF00
  | .gFlush => 0xFF000000
  | .gClear => 0xFF000000
  | .gScan => 0xFF000000
  | .gScanP => 0xFF000000
  | .gScanS => 0xFF000000
  | .gIsLed _ => 0xFF00FF00
  | .gSetLed _ => 0xFF00FF00
  | .gClrLed _ => 0xFF00FF00
  | .gIsPressed _ => 0xFF00FF00
  | .gWasPressed _ => 0xFF00FF00
  | .gJustPressed _ => 0xFF00FF00
  | .gJustReleased _ => 0xFF00FF00
  | .xy2i _ _ => 0xFF00FFFF
  | .i2xy _ => 0xFF00FF00

/-- The command the decoder reads from the lowest `nbits` bits of `w`, every higher bit 0. A command is presented to the
unit as one 32-bit value and is stored in no memory (R60, R71), so no byte order enters. -/
def decodeTableWord (nbits w : Nat) : Option Instr :=
  match decode (BitVec.ofNat 32 (w % 2 ^ nbits)) with
  | .ok i => some i
  | .error _ => none

end Sys2Proof
end

