-- ==== Sys2Proof/Machine/State.lean ====
section
/-! DEFINITION. The state of the unit as plain data (`10_state.md`), what it emits, what the outside world offers it,
the reasons a step can stop (R156, R157), and the state after reset (R17). -/

namespace Sys2Proof.Machine

/-- One transport event (R7). A read carries the bytes the transport answered, as the spec's own vectors print it
(log 17). -/
inductive Event where
  /-- `TB(a)`: open a write transaction to bus address `a` -/
  | tb (addr : BusAddr)
  /-- `TW(v)`: append byte `v` to the open transaction -/
  | tw (v : Byte)
  /-- `TE()`: close the open transaction -/
  | te
  /-- `TR(a, n)`: read `n` bytes from bus address `a`, with the answer -/
  | tr (addr : BusAddr) (count : Nat) (answer : KeyBytes)
deriving DecidableEq, Repr

/-- What the host offers at one point of the run (R71, R184). -/
inductive HostInput where
  /-- one command word, after the previous response -/
  | command (w : Word)
  /-- two command words at once, without serialisation (U18, R157, log 9) -/
  | concurrent (w₁ w₂ : Word)
deriving DecidableEq, Repr

/-- The state of one slot (R10 to R14). -/
structure Slot where
  /-- `DISP[s][0..7]`, R10 -/
  disp : DispBuf
  /-- `KEY_CUR[s][0..5]`, R11 -/
  keyCur : KeyBytes
  /-- `KEY_PREV[s][0..5]`, R12 -/
  keyPrev : KeyBytes
  /-- `ADDR[s]`, R13 -/
  addr : BusAddr
  /-- `BOUND[s]`, R14 -/
  bound : Bool
deriving DecidableEq, Repr

/-- The whole machine. -/
structure State where
  /-- the configuration of the run, which no step writes (R5, R16, R19) -/
  cfg : Config
  /-- the four slots (R1) -/
  slots : Vector Slot 4
  /-- the transport trace, oldest event first (R7, R23) -/
  trace : List Event
  /-- the responses given, oldest first (R62, R183) -/
  responses : List Resp
  /-- MODEL's field: the host inputs still to come, next first (R184, log 1) -/
  pending : List HostInput
  /-- the position in the host's command list (R20) -/
  pos : Nat
  /-- MODEL's field: the transport answers still to come, next first (R47, log 5) -/
  answers : List KeyBytes
  /-- MODEL's field: how many reads have been answered (R47, log 5) -/
  draws : Nat
deriving DecidableEq, Repr

/-- What stops the machine as a bad outcome. -/
inductive Fault where
  /-- `Fault(UnboundAddress)` (R156): raised by the commands that use the transport (`D_BRIGHT`, `D_BLINK`, `D_FLUSH`,
  `D_SCAN` and their `G_` forms) at a present `slot` whose `BOUND` is 0. `left` is the state it leaves: the slots of a
  broadcast or group scan before it have acted, `slot` itself has not (log 6). Safe: the source gives no behaviour here. -/
  | unboundAddress (slot : SlotNo) (left : State)
deriving DecidableEq, Repr

/-- What the model gives no meaning to. -/
inductive Refusal where
  /-- an instruction without a meaning yet; raised by no arm of this model. Safe. -/
  | notModelled (mnemonic : String)
  /-- `Refuse(ReservedOpcode)` (R65, R157): raised by the step at a word whose `op` is reserved. Safe. -/
  | reservedOpcode (w : Word)
  /-- `Refuse(IllFormedTables)` (R157): raised by the step, whatever is pending, under a configuration that breaks R36,
  R37, R39 or R16. Safe. -/
  | illFormedTables
  /-- `Refuse(ConcurrentAccess)` (R157): raised by the step when two commands are offered at once. Safe. -/
  | concurrentAccess
deriving DecidableEq, Repr

/-- The reset state of a slot (R17): buffers zero, `BOUND = 0`; `ADDR` is unspecified by the spec and 0 here
(DESIGN CHOICE, log 4). -/
def Slot.reset : Slot where
  disp := #v[0, 0, 0, 0, 0, 0, 0, 0]
  keyCur := #v[0, 0, 0, 0, 0, 0]
  keyPrev := #v[0, 0, 0, 0, 0, 0]
  addr := 0
  bound := false

/-- The machine right after reset under the configuration `cfg` (R17, R171): every slot at reset, no event emitted,
no response given, nothing offered yet. -/
def State.initial (cfg : Config) : State where
  cfg := cfg
  slots := #v[Slot.reset, Slot.reset, Slot.reset, Slot.reset]
  trace := []
  responses := []
  pending := []
  pos := 0
  answers := []
  draws := 0

/-- The machine right after reset, with the spec's synthetic tables T0 and all four slots present for the OPEN
parameters (DESIGN CHOICE, log 3): `State.initial` gives it for every other choice. -/
def State.reset : State := State.initial (Config.t0 SlotSet.all)

end Sys2Proof.Machine
end

