-- ==== Sys2Proof/Machine/Operands.lean ====
section
/-! DEFINITION. Every operand form of the commands: range checks of slot, index and coordinate operands (R61, R66, R31,
R32, R33), the two table translations (R34, R35), and the values computed from level, rate and address operands
(R72, R82, R83, R67). -/

namespace Sys2Proof.Machine

/-- A slot operand in range: `a <= 3` (R61). -/
def slotOperand (a : Byte) : Option SlotNo :=
  if h : a.toNat ≤ 3 then some ⟨a.toNat, by omega⟩ else none

/-- A local index or key operand in range: `b <= 15` on the full 8 bits (R31, R61). -/
def localOperand (b : Byte) : Option LocalIdx :=
  if h : b.toNat ≤ 15 then some ⟨b.toNat, by omega⟩ else none

/-- A flat index operand in range: `b <= 63` on the full 8 bits (R32, R61). -/
def flatOperand (b : Byte) : Option FlatIdx :=
  if h : b.toNat ≤ 63 then some ⟨b.toNat, by omega⟩ else none

/-- `slot(k) = k / 16` (R32). -/
def flatSlot (k : FlatIdx) : SlotNo := ⟨k.val / 16, by omega⟩

/-- `local(k) = k % 16` (R32). -/
def flatLocal (k : FlatIdx) : LocalIdx := ⟨k.val % 16, by omega⟩

/-- A coordinate operand in range: `<= 7` (R33, R61). -/
def coordOperand (b : Byte) : Option Coord :=
  if h : b.toNat ≤ 7 then some ⟨b.toNat, by omega⟩ else none

/-- `e[7:4]` of a table entry (R34). -/
def entryHigh (e : Byte) : Nat := (e.extractLsb' 4 4).toNat

/-- `e[3:0]` of a table entry (R34). -/
def entryLow (e : Byte) : Nat := (e.extractLsb' 0 4).toNat

/-- `led_pos(i)`: the word and bit of `DISP[s]` that local index `i` names (R34). That the upper nibble is a word index
is the spec's choice (D16, C6, log 11). -/
def ledPos (cfg : Config) (i : LocalIdx) : Nat × Nat :=
  (entryHigh cfg.ledLut[i], entryLow cfg.ledLut[i])

/-- `key_pos(k)`: the byte and bit of the key buffers that key `k` names (R35). -/
def keyPos (cfg : Config) (k : LocalIdx) : Nat × Nat :=
  (entryHigh cfg.keyLut[k], entryLow cfg.keyLut[k])

/-- `min(v, 15)` (R72, R82, D15). -/
def clampLevel (v : Byte) : Byte := if v.toNat ≤ 15 then v else 15#8

/-- `v` if `v <= 3`, else 0: not `v & 3` (R72, R83). -/
def selectRate (v : Byte) : Byte := if v.toNat ≤ 3 then v else 0#8

/-- The bus address an operand gives: its low 7 bits (R67, D10, log 15). -/
def addressOperand (b : Byte) : BusAddr := b.extractLsb' 0 7

/-- "enable internal oscillator" (R44). -/
def oscillatorByte : Byte := 0x21#8

/-- `0x80 | 0x01 | (r << 1)`, with the display-on flag always set (R44, R83). -/
def blinkByte (r : Byte) : Byte := 0x80#8 ||| 0x01#8 ||| (r <<< 1)

/-- `0xE0 | l` (R44, R82). -/
def brightByte (l : Byte) : Byte := 0xE0#8 ||| l

/-- "enable interrupt output, active-low" (R44). -/
def interruptByte : Byte := 0xA1#8

/-- "display buffer write, starting at register 0" (R44). -/
def displayByte : Byte := 0x00#8

/-- "key-scan read" (R44). -/
def keyScanByte : Byte := 0x40#8

end Sys2Proof.Machine
end

