-- ==== Sys2Proof/Machine/Flags.lean ====
section
/-! DEFINITION. The unit stores no flag (R21). What stands here is every truth value a command computes and returns:
the tested bits (R91, R100), the comparator of a scan (R101), the edge predicates (R104, R105), and their form in
the response (R62). -/

namespace Sys2Proof.Machine

/-- A truth value as a response: 0x0001 or 0x0000 (R62). -/
def boolResp (c : Bool) : Resp := if c then 1#16 else 0#16

/-- `DISP[s][w][bit]` (R91); a word the buffer does not have reads as 0 (only under ill-formed tables, log 8). -/
def testDisp (d : DispBuf) (p : Nat × Nat) : Bool := (d[p.1]?.getD 0).getLsbD p.2

/-- `KEY[s][byte][bit]` (R100); a byte the buffer does not have reads as 0 (only under ill-formed tables, log 8). -/
def testKey (r : KeyBytes) (p : Nat × Nat) : Bool := (r[p.1]?.getD 0).getLsbD p.2

/-- `changed`: byte-wise comparison over all 6 bytes (R101). -/
def changed (cur prev : KeyBytes) : Bool :=
  cur[0] != prev[0] || cur[1] != prev[1] || cur[2] != prev[2] || cur[3] != prev[3] || cur[4] != prev[4] ||
    cur[5] != prev[5]

/-- `isPressed AND NOT wasPressed` (R104). -/
def justPressed (cur prev : Bool) : Bool := cur && !prev

/-- `NOT isPressed AND wasPressed` (R105). -/
def justReleased (cur prev : Bool) : Bool := !cur && prev

end Sys2Proof.Machine
end

