-- ==== Sys2Proof/Machine/Ops.lean ====
section
/-! DEFINITION. The named operations every meaning is written over: presence and slots, the display and key buffers, the
transport primitives of R7, the oracle answer of R47, the one fault of R156, and the delegation schemes of R66, R110
and R111. The unit has no trap entry and no return (R155): the shared operation of raising is `raiseUnbound`. -/

namespace Sys2Proof.Machine

/-- What a per-slot command does to a slot: its response and the state it leaves, or the fault. -/
abbrev SlotResult := Except Fault (Resp × State)

/-- `PRESENT[k]` (R16). -/
def State.present (s : State) (k : SlotNo) : Bool := s.cfg.present[k]

/-- Write the state of slot `k`. -/
def State.setSlot (s : State) (k : SlotNo) (sl : Slot) : State := { s with slots := s.slots.set k sl }

/-- Append events to the transport trace, in order (R7, R50). -/
def State.emit (s : State) (evs : List Event) : State := { s with trace := s.trace ++ evs }

/-- `resp <- r`: the response of the command (R62). -/
def State.respond (s : State) (r : Resp) : State := { s with responses := s.responses ++ [r] }

/-- `live(a)` (R7): the slot an operand names, if it is in range and present. -/
def liveSlot (s : State) (a : Byte) : Option SlotNo :=
  match slotOperand a with
  | some k => if s.present k then some k else none
  | none => none

/-- `raise Fault(UnboundAddress)` at slot `k`, leaving `s` (R156). -/
def raiseUnbound {α : Type} (k : SlotNo) (s : State) : Except Fault α := .error (.unboundAddress k s)

/-- One write transaction: `TB(a); TW(v0); ...; TE()` (R7). -/
def writeEvents (a : BusAddr) (bs : List Byte) : List Event := .tb a :: (bs.map .tw ++ [.te])

/-- `ChipWrite(s, bytes)` (R7). -/
def chipWrite (k : SlotNo) (bs : List Byte) (s : State) : Except Fault State :=
  if s.slots[k].bound then .ok (s.emit (writeEvents s.slots[k].addr bs)) else raiseUnbound k s

/-- `cmd1(s, v)`: one chip command byte as a transaction of its own (R80, D12, log 14). -/
def cmd1 (k : SlotNo) (v : Byte) (s : State) : Except Fault State := chipWrite k [v] s

/-- The answer of the `n`-th read from here: the run's own while it has one, else the free value (R47, log 5). -/
def State.answerAt (s : State) (n : Nat) : KeyBytes := s.answers[n]?.getD (Config.oracleAnswer (s.draws + n))

/-- `ChipRead(s, 6)` (R7, R47): the answer, and the state after the read. The transport always completes and returns
exactly 6 bytes (D21, D22, log 7). -/
def chipRead (k : SlotNo) (s : State) : Except Fault (KeyBytes × State) :=
  if s.slots[k].bound then
    .ok (s.answerAt 0,
      { s with trace := s.trace ++ [.tr s.slots[k].addr 6 (s.answerAt 0)], answers := s.answers.tail,
               draws := s.draws + 1 })
  else raiseUnbound k s

/-- `DISP[k][w] <- f (DISP[k][w])`; a word the buffer does not have is not written (only under ill-formed tables,
log 8). -/
def State.updateWord (s : State) (k : SlotNo) (w : Nat) (f : DispWord → DispWord) : State :=
  s.setSlot k { s.slots[k] with disp := s.slots[k].disp.setIfInBounds w (f (s.slots[k].disp[w]?.getD 0)) }

/-- The end of a command: its response is given, or it faults. -/
def finish (r : SlotResult) : Host.Outcome State Fault Refusal :=
  match r with
  | .ok (resp, t) => .next (t.respond resp)
  | .error e => .fault e

/-- A command without effect: no state change, no event, the stated response (R151). -/
def absorb (resp : Resp) (s : State) : Host.Outcome State Fault Refusal := .next (s.respond resp)

/-- A per-slot command: absorbed if the slot operand names no live slot (R66), else done on that slot. -/
def perSlot (a : Byte) (f : SlotNo → State → SlotResult) (s : State) : Host.Outcome State Fault Refusal :=
  match liveSlot s a with
  | some k => finish (f k s)
  | none => absorb 0 s

/-- The index check of R90 and R100: out of range is absorbed, else `f` is done at the local index. -/
def atLocal (b : Byte) (f : LocalIdx → SlotNo → State → SlotResult) (k : SlotNo) (s : State) : SlotResult :=
  match localOperand b with
  | some i => f i k s
  | none => .ok (0, s)

/-- `route(D_X, k)` (R110): exactly one slot, by the partitioning rule. -/
def route (b : Byte) (f : LocalIdx → SlotNo → State → SlotResult) (s : State) : Host.Outcome State Fault Refusal :=
  match flatOperand b with
  | some k => if s.present (flatSlot k) then finish (f (flatLocal k) (flatSlot k) s) else absorb 0 s
  | none => absorb 0 s

/-- The slots in the order a broadcast or group scan visits them: ascending (R111, D18, log 12). -/
def slotOrder : List SlotNo := [0, 1, 2, 3]

/-- Do `f` on every present slot of `S` among the slots listed, in that order, none skipped for an earlier result; the
truth value is whether any of them answered true (R111). The first fault ends it. -/
def visit (S : SlotSet) (f : SlotNo → State → SlotResult) : List SlotNo → Bool → State → Except Fault (Bool × State)
  | [], any, s => .ok (any, s)
  | k :: ks, any, s =>
    if S[k] && s.present k then
      match f k s with
      | .ok (c, t) => visit S f ks (any || c == 1#16) t
      | .error e => .error e
    else visit S f ks any s

/-- `broadcast(D_X, v)` (R111): every present slot, response 0. -/
def broadcast (f : SlotNo → State → SlotResult) (s : State) : Host.Outcome State Fault Refusal :=
  match visit SlotSet.all f slotOrder false s with
  | .ok (_, t) => absorb 0 t
  | .error e => .fault e

/-- `scan_set(S)` (R111) over a per-slot scan: the response is the OR of the results. -/
def scanSet (S : SlotSet) (f : SlotNo → State → SlotResult) (s : State) : Host.Outcome State Fault Refusal :=
  match visit S f slotOrder false s with
  | .ok (any, t) => absorb (boolResp any) t
  | .error e => .fault e

end Sys2Proof.Machine
end

