-- ==== Sys2Proof/Machine/ChipControl.lean ====
section
/-! DEFINITION. Family 40, chip control (`40_chip_control.md`): `D_INIT`, `D_BRIGHT`, `D_BLINK`. -/

namespace Sys2Proof.Machine

/-- A list of chip command bytes, each a transaction of its own, in order (R80). -/
def cmdBytes (k : SlotNo) : List Byte → State → Except Fault State
  | [], s => .ok s
  | v :: vs, s =>
    match cmd1 k v s with
    | .ok t => cmdBytes k vs t
    | .error e => .error e

/-- Chip command bytes as a whole per-slot command without a result. -/
def sendBytes (vs : List Byte) (k : SlotNo) (s : State) : SlotResult :=
  match cmdBytes k vs s with
  | .ok t => .ok (0, t)
  | .error e => .error e

/-- The start-up bytes of R81, in the order R173 fixes: oscillator, blink off with the display on, brightness,
interrupt output. -/
def startupBytes (brightness : Byte) : List Byte :=
  [oscillatorByte, blinkByte 0, brightByte (clampLevel brightness), interruptByte]

/-- The per-slot part of `D_INIT` (R81): bind the address, then send the start-up bytes. -/
def initSlot (addr brightness : Byte) (k : SlotNo) (s : State) : SlotResult :=
  sendBytes (startupBytes brightness) k (s.setSlot k { s.slots[k] with addr := addressOperand addr, bound := true })

/-- The per-slot part of `D_BRIGHT` (R82). -/
def brightSlot (level : Byte) (k : SlotNo) (s : State) : SlotResult :=
  sendBytes [brightByte (clampLevel level)] k s

/-- The per-slot part of `D_BLINK` (R83). -/
def blinkSlot (rate : Byte) (k : SlotNo) (s : State) : SlotResult :=
  sendBytes [blinkByte (selectRate rate)] k s

/-- `D_INIT s, addr, brightness` (R81). -/
def execDInit (slot addr brightness : Byte) (s : State) : Host.Outcome State Fault Refusal :=
  perSlot slot (initSlot addr brightness) s

/-- `D_BRIGHT s, level` (R82). -/
def execDBright (slot level : Byte) (s : State) : Host.Outcome State Fault Refusal :=
  perSlot slot (brightSlot level) s

/-- `D_BLINK s, rate` (R83). -/
def execDBlink (slot rate : Byte) (s : State) : Host.Outcome State Fault Refusal :=
  perSlot slot (blinkSlot rate) s

end Sys2Proof.Machine
end

