-- ==== Sys2Proof/Machine/KeyEdge.lean ====
section
/-! DEFINITION. Family 42, the key-state edge detector (`42_key_edge.md`): `D_SCAN`, `D_ISPRESSED`, `D_WASPRESSED`,
`D_JUSTPRESSED`, `D_JUSTRELEASED`. -/

namespace Sys2Proof.Machine

/-- `KEY_PREV[k] <- KEY_CUR[k]`, all 6 bytes (R101, R51). -/
def State.rotateKeys (s : State) (k : SlotNo) : State :=
  s.setSlot k { s.slots[k] with keyPrev := s.slots[k].keyCur }

/-- `KEY_CUR[k] <- r`, all 6 bytes (R101). -/
def State.storeKeys (s : State) (k : SlotNo) (r : KeyBytes) : State :=
  s.setSlot k { s.slots[k] with keyCur := r }

/-- The per-slot part of `D_SCAN` (R101), in its order: the bound check before any change (C10), the copy, the command
byte in a closed transaction, the 6-byte read, the store, the comparison. -/
def scanSlot (k : SlotNo) (s : State) : SlotResult :=
  if s.slots[k].bound then
    match chipWrite k [keyScanByte] (s.rotateKeys k) with
    | .ok t =>
      match chipRead k t with
      | .ok (r, u) =>
        .ok (boolResp (changed (u.storeKeys k r).slots[k].keyCur (u.storeKeys k r).slots[k].keyPrev), u.storeKeys k r)
      | .error e => .error e
    | .error e => .error e
  else raiseUnbound k s

/-- `cur`: the key's bit in the current buffer (R100). -/
def curBit (i : LocalIdx) (k : SlotNo) (s : State) : Bool := testKey s.slots[k].keyCur (keyPos s.cfg i)

/-- `prev`: the key's bit in the previous buffer (R100). -/
def prevBit (i : LocalIdx) (k : SlotNo) (s : State) : Bool := testKey s.slots[k].keyPrev (keyPos s.cfg i)

/-- The per-slot part of `D_ISPRESSED` (R102). -/
def isPressedSlot (i : LocalIdx) (k : SlotNo) (s : State) : SlotResult := .ok (boolResp (curBit i k s), s)

/-- The per-slot part of `D_WASPRESSED` (R103). -/
def wasPressedSlot (i : LocalIdx) (k : SlotNo) (s : State) : SlotResult := .ok (boolResp (prevBit i k s), s)

/-- The per-slot part of `D_JUSTPRESSED` (R104). -/
def justPressedSlot (i : LocalIdx) (k : SlotNo) (s : State) : SlotResult :=
  .ok (boolResp (justPressed (curBit i k s) (prevBit i k s)), s)

/-- The per-slot part of `D_JUSTRELEASED` (R105). -/
def justReleasedSlot (i : LocalIdx) (k : SlotNo) (s : State) : SlotResult :=
  .ok (boolResp (justReleased (curBit i k s) (prevBit i k s)), s)

/-- `D_SCAN s` (R101). -/
def execDScan (slot : Byte) (s : State) : Host.Outcome State Fault Refusal :=
  perSlot slot scanSlot s

/-- `D_ISPRESSED s, k` (R102). -/
def execDIsPressed (slot key : Byte) (s : State) : Host.Outcome State Fault Refusal :=
  perSlot slot (atLocal key isPressedSlot) s

/-- `D_WASPRESSED s, k` (R103). -/
def execDWasPressed (slot key : Byte) (s : State) : Host.Outcome State Fault Refusal :=
  perSlot slot (atLocal key wasPressedSlot) s

/-- `D_JUSTPRESSED s, k` (R104). -/
def execDJustPressed (slot key : Byte) (s : State) : Host.Outcome State Fault Refusal :=
  perSlot slot (atLocal key justPressedSlot) s

/-- `D_JUSTRELEASED s, k` (R105). -/
def execDJustReleased (slot key : Byte) (s : State) : Host.Outcome State Fault Refusal :=
  perSlot slot (atLocal key justReleasedSlot) s

end Sys2Proof.Machine
end

