-- ==== Sys2Proof/Machine/LedBuffer.lean ====
section
/-! DEFINITION. Family 41, the LED display buffer and its serializer (`41_led_buffer.md`): `D_ISLED`, `D_SETLED`,
`D_CLRLED`, `D_FLUSH`, `D_CLEAR`. -/

namespace Sys2Proof.Machine

/-- The per-slot part of `D_ISLED` (R91). -/
def isLedSlot (i : LocalIdx) (k : SlotNo) (s : State) : SlotResult :=
  .ok (boolResp (testDisp s.slots[k].disp (ledPos s.cfg i)), s)

/-- The per-slot part of `D_SETLED` (R92). -/
def setLedSlot (i : LocalIdx) (k : SlotNo) (s : State) : SlotResult :=
  .ok (0, s.updateWord k (ledPos s.cfg i).1 (· ||| (1#16 <<< (ledPos s.cfg i).2)))

/-- The per-slot part of `D_CLRLED` (R93). -/
def clrLedSlot (i : LocalIdx) (k : SlotNo) (s : State) : SlotResult :=
  .ok (0, s.updateWord k (ledPos s.cfg i).1 (· &&& ~~~(1#16 <<< (ledPos s.cfg i).2)))

/-- The two data bytes of a display word, low byte first (R45). -/
def wordBytes (w : DispWord) : List Byte := [w.extractLsb' 0 8, w.extractLsb' 8 8]

/-- The 16 data bytes of a flush, word 0 first (R45). -/
def dataBytes (d : DispBuf) : List Byte := d.toList.flatMap wordBytes

/-- The per-slot part of `D_FLUSH` (R94): one transaction of 17 bytes (D23, log 14). -/
def flushSlot (k : SlotNo) (s : State) : SlotResult :=
  match chipWrite k (displayByte :: dataBytes s.slots[k].disp) s with
  | .ok t => .ok (0, t)
  | .error e => .error e

/-- The per-slot part of `D_CLEAR` (R95). -/
def clearSlot (k : SlotNo) (s : State) : SlotResult :=
  .ok (0, s.setSlot k { s.slots[k] with disp := #v[0, 0, 0, 0, 0, 0, 0, 0] })

/-- `D_ISLED s, i` (R91). -/
def execDIsLed (slot index : Byte) (s : State) : Host.Outcome State Fault Refusal :=
  perSlot slot (atLocal index isLedSlot) s

/-- `D_SETLED s, i` (R92). -/
def execDSetLed (slot index : Byte) (s : State) : Host.Outcome State Fault Refusal :=
  perSlot slot (atLocal index setLedSlot) s

/-- `D_CLRLED s, i` (R93). -/
def execDClrLed (slot index : Byte) (s : State) : Host.Outcome State Fault Refusal :=
  perSlot slot (atLocal index clrLedSlot) s

/-- `D_FLUSH s` (R94). -/
def execDFlush (slot : Byte) (s : State) : Host.Outcome State Fault Refusal :=
  perSlot slot flushSlot s

/-- `D_CLEAR s` (R95). -/
def execDClear (slot : Byte) (s : State) : Host.Outcome State Fault Refusal :=
  perSlot slot clearSlot s

end Sys2Proof.Machine
end

