-- ==== Sys2Proof/Machine/Aggregate.lean ====
section
/-! DEFINITION. Family 43, the aggregate commands (`43_aggregate.md`): broadcasts, group scans and routed commands, each
by delegation to the per-slot operation of its `D_` form (R110, R111). -/

namespace Sys2Proof.Machine

/-- `G_BRIGHT level` (R112). -/
def execGBright (level : Byte) (s : State) : Host.Outcome State Fault Refusal :=
  broadcast (brightSlot level) s

/-- `G_BLINK rate` (R113). -/
def execGBlink (rate : Byte) (s : State) : Host.Outcome State Fault Refusal :=
  broadcast (blinkSlot rate) s

/-- `G_FLUSH` (R114). -/
def execGFlush (s : State) : Host.Outcome State Fault Refusal :=
  broadcast flushSlot s

/-- `G_CLEAR` (R115). -/
def execGClear (s : State) : Host.Outcome State Fault Refusal :=
  broadcast clearSlot s

/-- `G_SCAN` (R116): the set of all four slots. -/
def execGScan (s : State) : Host.Outcome State Fault Refusal :=
  scanSet SlotSet.all scanSlot s

/-- `G_SCANP` (R117): the configured primary set. -/
def execGScanP (s : State) : Host.Outcome State Fault Refusal :=
  scanSet s.cfg.primary scanSlot s

/-- `G_SCANS` (R118): the configured secondary set. -/
def execGScanS (s : State) : Host.Outcome State Fault Refusal :=
  scanSet s.cfg.secondary scanSlot s

/-- `G_ISLED k` (R119). -/
def execGIsLed (index : Byte) (s : State) : Host.Outcome State Fault Refusal :=
  route index isLedSlot s

/-- `G_SETLED k` (R120). -/
def execGSetLed (index : Byte) (s : State) : Host.Outcome State Fault Refusal :=
  route index setLedSlot s

/-- `G_CLRLED k` (R121). -/
def execGClrLed (index : Byte) (s : State) : Host.Outcome State Fault Refusal :=
  route index clrLedSlot s

/-- `G_ISPRESSED k` (R122). -/
def execGIsPressed (key : Byte) (s : State) : Host.Outcome State Fault Refusal :=
  route key isPressedSlot s

/-- `G_WASPRESSED k` (R123). -/
def execGWasPressed (key : Byte) (s : State) : Host.Outcome State Fault Refusal :=
  route key wasPressedSlot s

/-- `G_JUSTPRESSED k` (R124). -/
def execGJustPressed (key : Byte) (s : State) : Host.Outcome State Fault Refusal :=
  route key justPressedSlot s

/-- `G_JUSTRELEASED k` (R125). -/
def execGJustReleased (key : Byte) (s : State) : Host.Outcome State Fault Refusal :=
  route key justReleasedSlot s

end Sys2Proof.Machine
end

