-- ==== Sys2Proof/Machine/Coordinate.lean ====
section
/-! DEFINITION. Family 44, the coordinate look-ups (`44_coordinate.md`): `XY2I`, `I2XY`. They read the tables alone and
write nothing (R140). -/

namespace Sys2Proof.Machine

/-- The response of `XY2I x, y` (R141). The marker's value, and that `y > 7` gives it too, are the spec's choices
(D20, log 13). -/
def xy2iResp (cfg : Config) (x y : Byte) : Resp :=
  match coordOperand x, coordOperand y with
  | some i, some j => BitVec.ofNat 16 cfg.xy2i[i][j].val
  | _, _ => Config.idxInvalid.zeroExtend 16

/-- `(x << 8) | y` in 16 bits (R142, R72). -/
def pairResp (x y : Byte) : Resp := (x.zeroExtend 16 <<< 8) ||| y.zeroExtend 16

/-- The response of `I2XY k` (R142). -/
def i2xyResp (cfg : Config) (index : Byte) : Resp :=
  match flatOperand index with
  | some k => pairResp (BitVec.ofNat 8 cfg.i2xy[k].1.val) (BitVec.ofNat 8 cfg.i2xy[k].2.val)
  | none => pairResp Config.xyInvalid Config.xyInvalid

/-- `XY2I x, y` (R141). -/
def execXy2i (x y : Byte) (s : State) : Host.Outcome State Fault Refusal :=
  absorb (xy2iResp s.cfg x y) s

/-- `I2XY k` (R142). -/
def execI2xy (index : Byte) (s : State) : Host.Outcome State Fault Refusal :=
  absorb (i2xyResp s.cfg index) s

end Sys2Proof.Machine
end

