-- ==== Sys2Proof/Machine/Dispatch.lean ====
section
/-! DEFINITION. One arm per command (R63), each one call of its meaning. -/

namespace Sys2Proof.Machine

def exec (i : Instr) (s : State) : Host.Outcome State Fault Refusal :=
  match i with
  | .dInit slot addr brightness => Sys2Proof.Machine.execDInit slot addr brightness s
  | .dBright slot level => Sys2Proof.Machine.execDBright slot level s
  | .dBlink slot rate => Sys2Proof.Machine.execDBlink slot rate s
  | .dFlush slot => Sys2Proof.Machine.execDFlush slot s
  | .dClear slot => Sys2Proof.Machine.execDClear slot s
  | .dScan slot => Sys2Proof.Machine.execDScan slot s
  | .dIsLed slot index => Sys2Proof.Machine.execDIsLed slot index s
  | .dSetLed slot index => Sys2Proof.Machine.execDSetLed slot index s
  | .dClrLed slot index => Sys2Proof.Machine.execDClrLed slot index s
  | .dIsPressed slot key => Sys2Proof.Machine.execDIsPressed slot key s
  | .dWasPressed slot key => Sys2Proof.Machine.execDWasPressed slot key s
  | .dJustPressed slot key => Sys2Proof.Machine.execDJustPressed slot key s
  | .dJustReleased slot key => Sys2Proof.Machine.execDJustReleased slot key s
  | .gBright level => Sys2Proof.Machine.execGBright level s
  | .gBlink rate => Sys2Proof.Machine.execGBlink rate s
  | .gFlush => Sys2Proof.Machine.execGFlush s
  | .gClear => Sys2Proof.Machine.execGClear s
  | .gScan => Sys2Proof.Machine.execGScan s
  | .gScanP => Sys2Proof.Machine.execGScanP s
  | .gScanS => Sys2Proof.Machine.execGScanS s
  | .gIsLed index => Sys2Proof.Machine.execGIsLed index s
  | .gSetLed index => Sys2Proof.Machine.execGSetLed index s
  | .gClrLed index => Sys2Proof.Machine.execGClrLed index s
  | .gIsPressed key => Sys2Proof.Machine.execGIsPressed key s
  | .gWasPressed key => Sys2Proof.Machine.execGWasPressed key s
  | .gJustPressed key => Sys2Proof.Machine.execGJustPressed key s
  | .gJustReleased key => Sys2Proof.Machine.execGJustReleased key s
  | .xy2i x y => Sys2Proof.Machine.execXy2i x y s
  | .i2xy index => Sys2Proof.Machine.execI2xy index s

end Sys2Proof.Machine
end

