-- ==== Sys2Proof/Machine/Fetch.lean ====
section
/-! DEFINITION. How the next command reaches the unit (R20, R71): there is no program counter and no fetch from memory;
the host presents each command. The checks that come before any command stand here too, in the order of R157 and
R154: the configuration, concurrent access, the reserved opcode. -/

namespace Sys2Proof.Machine

/-- What the unit finds at its command interface. -/
inductive Fetched where
  /-- no command is presented -/
  | idle
  /-- a refusal of R157 -/
  | refuse (r : Refusal)
  /-- command `i` is presented; `s` is the state with the host's list moved past it -/
  | run (i : Instr) (s : State)
deriving DecidableEq, Repr

/-- The host's list with its first input taken, and the position advanced by 1 (R20). -/
def State.advance (s : State) : State := { s with pending := s.pending.tail, pos := s.pos + 1 }

/-- Put a command word at the front of the host's list (R184). -/
def State.offer (s : State) (w : Word) : State := { s with pending := .command w :: s.pending }

/-- What is found, under a well-formed configuration; an ill-formed one is refused whatever is found (R157, log 8). -/
def guardConfig (s : State) (found : Fetched) : Fetched :=
  if s.cfg.wellFormed = true then found else .refuse .illFormedTables

/-- A command word: its command, or the refusal of a reserved opcode (R65, R157). -/
def offered (w : Word) (s : State) : Fetched :=
  match decode w with
  | .ok i => .run i s.advance
  | .error (.reservedOpcode _) => .refuse (.reservedOpcode w)

/-- The command interface (R71). -/
def fetch (s : State) : Fetched :=
  match s.pending with
  | [] => guardConfig s .idle
  | .concurrent _ _ :: _ => guardConfig s (.refuse .concurrentAccess)
  | .command w :: _ => guardConfig s (offered w s)

end Sys2Proof.Machine
end

