-- ==== Sys2Proof/Machine/Step.lean ====
section
/-! DEFINITION. One step of the machine: the command presented is executed to completion (R4, R20). -/

namespace Sys2Proof.Machine

/-- One step. With no command presented the unit waits, its state unchanged (R183, log 2). -/
def step (s : State) : Host.Outcome State Fault Refusal :=
  match fetch s with
  | .idle => .next s
  | .refuse r => .refused r
  | .run i t => exec i t

/-- `s` with the command word given by the lowest `nbits` bits of `w` presented next (log 1). -/
def State.withFetchWord (s : State) (nbits w : Nat) : State :=
  s.offer (BitVec.ofNat 32 (w % 2 ^ nbits))

end Sys2Proof.Machine
end

