-- ==== Sys2Proof/Machine/ChipView.lean ====
section
/-! DEFINITION. The external chips as far as the transport trace shows them (R22, R44): the trace read as transactions,
and, for one bus address, the settings and the display memory its write transactions give. This is an observable derived
from the trace, not state of the unit; no meaning reads it (log 23). -/

namespace Sys2Proof.Machine

/-- A completed transaction on the transport (R7). -/
inductive Transaction where
  /-- `TB(a)`, the bytes written, `TE()` -/
  | write (addr : BusAddr) (bytes : List Byte)
  /-- `TR(a, n)` with its answer -/
  | read (addr : BusAddr) (count : Nat) (answer : KeyBytes)
deriving DecidableEq, Repr

/-- A trace read so far: the transaction still open, the transactions completed, and whether every event came where the
contract of R7 lets it. -/
structure Framing where
  /-- the open write transaction, if there is one -/
  opened : Option (BusAddr × List Byte)
  /-- the completed transactions, oldest first -/
  done : List Transaction
  /-- no event has broken the contract -/
  ok : Bool
deriving DecidableEq, Repr

/-- Read one event (R7): `TW` and `TE` inside a transaction, `TB` and `TR` outside one. -/
def Framing.read (f : Framing) (e : Event) : Framing :=
  match e, f.opened with
  | .tb a, none => { f with opened := some (a, []) }
  | .tw v, some (a, bs) => { f with opened := some (a, bs ++ [v]) }
  | .te, some (a, bs) => { f with opened := none, done := f.done ++ [.write a bs] }
  | .tr a n r, none => { f with done := f.done ++ [.read a n r] }
  | _, _ => { f with ok := false }

/-- A trace read from its start. -/
def frame (tr : List Event) : Framing := tr.foldl Framing.read ⟨none, [], true⟩

/-- A write transaction of the map of R44, which "is the whole map the source gives of the chip". -/
def commandBytesOk (bs : List Byte) : Bool :=
  match bs with
  | [v] =>
    v == 0x21#8 || v == 0x81#8 || v == 0x83#8 || v == 0x85#8 || v == 0x87#8 || v.extractLsb' 4 4 == 0xE#4 ||
      v == 0xA1#8 || v == 0x40#8
  | v :: data => v == 0x00#8 && data.length == 16
  | [] => false

/-- A transaction the unit may emit (R44, R47). -/
def Transaction.ok (t : Transaction) : Bool :=
  match t with
  | .write _ bs => commandBytesOk bs
  | .read _ n _ => n == 6

/-- What the trace tells of one chip (R22). `none`: no transaction has set it, and the chip's own value at reset of the
unit is unknown to it (R171). -/
structure ChipView where
  /-- the internal oscillator was enabled -/
  oscillator : Option Bool
  /-- the blink-rate code, sent with the display-on flag set -/
  blink : Option (BitVec 2)
  /-- the brightness -/
  brightness : Option (BitVec 4)
  /-- the interrupt output was enabled -/
  interruptOut : Option Bool
  /-- the 16 bytes of display memory from register 0 -/
  display : Option (List Byte)
deriving DecidableEq, Repr

/-- Nothing known. -/
def ChipView.unknown : ChipView := ⟨none, none, none, none, none⟩

/-- What a write transaction tells of the chip it is addressed to (R44, the source's words). -/
def ChipView.write (v : ChipView) (bs : List Byte) : ChipView :=
  match bs with
  | [c] =>
    if c = oscillatorByte then { v with oscillator := some true }
    else if c = interruptByte then { v with interruptOut := some true }
    else if c.extractLsb' 4 4 = 0x8#4 then { v with blink := some (c.extractLsb' 1 2) }
    else if c.extractLsb' 4 4 = 0xE#4 then { v with brightness := some (c.extractLsb' 0 4) }
    else v
  | c :: data => if c = displayByte then { v with display := some data } else v
  | [] => v

/-- One transaction as the chip at address `a` sees it. -/
def ChipView.apply (a : BusAddr) (v : ChipView) (t : Transaction) : ChipView :=
  match t with
  | .write b bs => if b = a then v.write bs else v
  | .read _ _ _ => v

/-- The chip at address `a` after a trace (R22). -/
def chipView (a : BusAddr) (tr : List Event) : ChipView := (frame tr).done.foldl (ChipView.apply a) ChipView.unknown

end Sys2Proof.Machine
end

