-- ==== Sys2Proof/Safety.lean ====
section
/-! DEFINITION. The terms claims about the unit are stated in: operands by number, which slots' transport a command reaches
(R156), what an absorbed command leaves (R151), the invariants of a run, two states that agree but for addresses nothing may
read (R17), and a run that never stops badly. -/

namespace Sys2Proof

/-- The number of the slot a command is addressed to (R24): the slot operand of a `D_` command (R66), the slot a flat index
belongs to for a routed `G_` command (R32). -/
def Instr.addressed : Instr → Option Nat
  | .dInit a _ _ => some a.toNat
  | .dBright a _ => some a.toNat
  | .dBlink a _ => some a.toNat
  | .dFlush a => some a.toNat
  | .dClear a => some a.toNat
  | .dScan a => some a.toNat
  | .dIsLed a _ => some a.toNat
  | .dSetLed a _ => some a.toNat
  | .dClrLed a _ => some a.toNat
  | .dIsPressed a _ => some a.toNat
  | .dWasPressed a _ => some a.toNat
  | .dJustPressed a _ => some a.toNat
  | .dJustReleased a _ => some a.toNat
  | .gIsLed b => some (b.toNat / 16)
  | .gSetLed b => some (b.toNat / 16)
  | .gClrLed b => some (b.toNat / 16)
  | .gIsPressed b => some (b.toNat / 16)
  | .gWasPressed b => some (b.toNat / 16)
  | .gJustPressed b => some (b.toNat / 16)
  | .gJustReleased b => some (b.toNat / 16)
  | .gBright _ => none
  | .gBlink _ => none
  | .gFlush => none
  | .gClear => none
  | .gScan => none
  | .gScanP => none
  | .gScanS => none
  | .xy2i _ _ => none
  | .i2xy _ => none

namespace Machine

/-- The operand that names slot `k`. -/
def slotByte (k : SlotNo) : Byte := BitVec.ofNat 8 k.val

/-- The operand that names local index or key `i`. -/
def localByte (i : LocalIdx) : Byte := BitVec.ofNat 8 i.val

/-- The operand that names flat index `k`. -/
def flatByte (k : FlatIdx) : Byte := BitVec.ofNat 8 k.val

/-- The operand that names coordinate `x`. -/
def coordByte (x : Coord) : Byte := BitVec.ofNat 8 x.val

/-- An operand that names no live slot: an absent slot, or above 3, which is the spec's own extension (R66, D11, log 15). -/
def DeadSlot (s : State) (a : Byte) : Prop := ∀ k : SlotNo, a.toNat = k.val → s.cfg.present[k] = false

/-- Command `i` completes with response `r` and changes nothing else: no slot, no event, no input consumed. -/
def Answers (i : Instr) (s : State) (r : Resp) : Prop :=
  exec i s = .next { s with responses := s.responses ++ [r] }

/-- The response of a truth value (R62). -/
def truth (c : Bool) : Resp := if c = true then 0x0001 else 0x0000

/-- Command `i` must emit a transport event for the present slot `k`, and does not itself bind it (R156). -/
def Reaches (i : Instr) (s : State) (k : SlotNo) : Prop :=
  match i with
  | .dBright a _ => a = slotByte k ∧ s.cfg.present[k] = true
  | .dBlink a _ => a = slotByte k ∧ s.cfg.present[k] = true
  | .dFlush a => a = slotByte k ∧ s.cfg.present[k] = true
  | .dScan a => a = slotByte k ∧ s.cfg.present[k] = true
  | .gBright _ => s.cfg.present[k] = true
  | .gBlink _ => s.cfg.present[k] = true
  | .gFlush => s.cfg.present[k] = true
  | .gScan => s.cfg.present[k] = true
  | .gScanP => s.cfg.primary[k] = true ∧ s.cfg.present[k] = true
  | .gScanS => s.cfg.secondary[k] = true ∧ s.cfg.present[k] = true
  | .dInit _ _ _ => False
  | .dClear _ => False
  | .dIsLed _ _ => False
  | .dSetLed _ _ => False
  | .dClrLed _ _ => False
  | .dIsPressed _ _ => False
  | .dWasPressed _ _ => False
  | .dJustPressed _ _ => False
  | .dJustReleased _ _ => False
  | .gClear => False
  | .gIsLed _ => False
  | .gSetLed _ => False
  | .gClrLed _ => False
  | .gIsPressed _ => False
  | .gWasPressed _ => False
  | .gJustPressed _ => False
  | .gJustReleased _ => False
  | .xy2i _ _ => False
  | .i2xy _ => False

/-- A command that scans (R12). -/
def Scans (i : Instr) : Prop := (∃ a, i = .dScan a) ∨ i = .gScan ∨ i = .gScanP ∨ i = .gScanS

/-- A command that flushes (R94, R114). -/
def Flushes (i : Instr) : Prop := (∃ a, i = .dFlush a) ∨ i = .gFlush

/-- The present slots of a set, in the order they are visited (R111, D18). -/
def presentIn (S : SlotSet) (s : State) : List SlotNo := [0, 1, 2, 3].filter fun k => S[k] && s.cfg.present[k]

/-- The write transaction of slot `k` that sends `bytes` (R7). -/
def transaction (s : State) (k : SlotNo) (bytes : List Byte) : List Event :=
  .tb s.slots[k].addr :: (bytes.map .tw ++ [.te])

/-- The 17 bytes of a flush of the buffer `d`, written out (R94). -/
def flushBytes (d : DispBuf) : List Byte :=
  [0x00, d[0].extractLsb' 0 8, d[0].extractLsb' 8 8, d[1].extractLsb' 0 8, d[1].extractLsb' 8 8,
    d[2].extractLsb' 0 8, d[2].extractLsb' 8 8, d[3].extractLsb' 0 8, d[3].extractLsb' 8 8,
    d[4].extractLsb' 0 8, d[4].extractLsb' 8 8, d[5].extractLsb' 0 8, d[5].extractLsb' 8 8,
    d[6].extractLsb' 0 8, d[6].extractLsb' 8 8, d[7].extractLsb' 0 8, d[7].extractLsb' 8 8]

/-- The bit of a display buffer that local index `i` names (R34), read by its table entry's number. -/
def ledBit (cfg : Config) (d : DispBuf) (i : LocalIdx) : Bool :=
  (d[cfg.ledLut[i].toNat / 16]?.getD 0).getLsbD (cfg.ledLut[i].toNat % 16)

/-- The bit of a key buffer that key `i` names (R35), read by its table entry's number. -/
def keyBit (cfg : Config) (r : KeyBytes) (i : LocalIdx) : Bool :=
  (r[cfg.keyLut[i].toNat / 16]?.getD 0).getLsbD (cfg.keyLut[i].toNat % 16)

/-- Opcodes of R65. -/
def ReservedOp (op : Nat) : Prop :=
  op ≤ 0x0F ∨ op = 0x16 ∨ op = 0x17 ∨ op = 0x1B ∨ op = 0x20 ∨ op = 0x2B ∨ 0x32 ≤ op

/-- A key buffer as one 48-bit value, byte 5 the most significant (R107). -/
def keys48 (r : KeyBytes) : BitVec 48 := r[5] ++ r[4] ++ r[3] ++ r[2] ++ r[1] ++ r[0]

/-- A display buffer as one 128-bit value, word 7 the most significant (R55). -/
def shiftRegister (d : DispBuf) : BitVec 128 := d[7] ++ d[6] ++ d[5] ++ d[4] ++ d[3] ++ d[2] ++ d[1] ++ d[0]

/-- `n` bytes shifted out of a register, low byte first (R55). -/
def shiftOut : Nat → BitVec 128 → List Byte
  | 0, _ => []
  | n + 1, sr => sr.extractLsb' 0 8 :: shiftOut n (sr >>> 8)

/-- `t` is `s` with the slots listed scanned in that order (R101, R111): each pair rotated and loaded with the next answer,
one `0x40` transaction and one 6-byte read per slot, one answer consumed per slot, every other slot left alone. -/
def ScannedInOrder (l : List SlotNo) (s t : State) : Prop :=
  (∀ p ∈ l.zipIdx, t.slots[p.1] =
    { s.slots[p.1] with keyPrev := s.slots[p.1].keyCur, keyCur := s.answerAt p.2 }) ∧
  (∀ k : SlotNo, k ∉ l → t.slots[k] = s.slots[k]) ∧
  t.trace = s.trace ++ l.zipIdx.flatMap (fun p =>
    transaction s p.1 [0x40] ++ [.tr s.slots[p.1].addr 6 (s.answerAt p.2)]) ∧
  t.answers = s.answers.drop l.length ∧ t.draws = s.draws + l.length ∧
  t.cfg = s.cfg ∧ t.responses = s.responses ∧ t.pending = s.pending ∧ t.pos = s.pos

/-- Some slot listed answers, in that order, other bytes than its current buffer holds (R101, R111). -/
def someChange (l : List SlotNo) (s : State) : Bool :=
  l.zipIdx.any fun p => s.answerAt p.2 != s.slots[p.1].keyCur

/-- What the group scan `i` of the set `S` does (R111): with every present slot of the set bound it scans them all in
order, whatever the earlier results, and answers the OR of the results; else it faults at the first unbound one, with the
slots before it scanned. -/
def GroupScan (i : Instr) (S : SlotSet) (s : State) : Prop :=
  ((∀ k ∈ presentIn S s, s.slots[k].bound = true) →
    ∃ t, ScannedInOrder (presentIn S s) s t ∧
      exec i s = .next { t with responses := s.responses ++ [truth (someChange (presentIn S s) s)] }) ∧
  (∀ k ∈ presentIn S s, s.slots[k].bound = false →
    (∀ j ∈ presentIn S s, j < k → s.slots[j].bound = true) →
      ∃ t, ScannedInOrder ((presentIn S s).filter (· < k)) s t ∧ exec i s = .fault (.unboundAddress k t))

/-- What the broadcast `i` that sends each slot the bytes `bytes k` does (R111, R112): with every present slot bound, one
transaction per present slot in order and nothing else; else it faults at the first unbound one, with the transactions of
the slots before it emitted. -/
def BroadcastSends (i : Instr) (bytes : SlotNo → List Byte) (s : State) : Prop :=
  ((∀ k ∈ presentIn SlotSet.all s, s.slots[k].bound = true) →
    exec i s = .next { s with
      trace := s.trace ++ (presentIn SlotSet.all s).flatMap fun k => transaction s k (bytes k)
      responses := s.responses ++ [0] }) ∧
  (∀ k ∈ presentIn SlotSet.all s, s.slots[k].bound = false →
    (∀ j ∈ presentIn SlotSet.all s, j < k → s.slots[j].bound = true) →
      exec i s = .fault (.unboundAddress k { s with
        trace := s.trace ++ ((presentIn SlotSet.all s).filter (· < k)).flatMap fun j => transaction s j (bytes j) }))

/-- How many slots a `D_` command with slot operand `a` acts on: 1 if it is live, else 0 (R66). -/
def liveCount (s : State) (a : Byte) : Nat := if ∃ k : SlotNo, a = slotByte k ∧ s.cfg.present[k] = true then 1 else 0

/-- The write transactions, `TW` bytes and reads of a command: the table of R182, per live slot or per present slot of
the group. -/
def transportCost (i : Instr) (s : State) : Nat × Nat × Nat :=
  match i with
  | .dInit a _ _ => (4 * liveCount s a, 4 * liveCount s a, 0)
  | .dBright a _ => (liveCount s a, liveCount s a, 0)
  | .dBlink a _ => (liveCount s a, liveCount s a, 0)
  | .dFlush a => (liveCount s a, 17 * liveCount s a, 0)
  | .dScan a => (liveCount s a, liveCount s a, liveCount s a)
  | .gBright _ => ((presentIn SlotSet.all s).length, (presentIn SlotSet.all s).length, 0)
  | .gBlink _ => ((presentIn SlotSet.all s).length, (presentIn SlotSet.all s).length, 0)
  | .gFlush => ((presentIn SlotSet.all s).length, 17 * (presentIn SlotSet.all s).length, 0)
  | .gScan => ((presentIn SlotSet.all s).length, (presentIn SlotSet.all s).length, (presentIn SlotSet.all s).length)
  | .gScanP => ((presentIn s.cfg.primary s).length, (presentIn s.cfg.primary s).length, (presentIn s.cfg.primary s).length)
  | .gScanS =>
    ((presentIn s.cfg.secondary s).length, (presentIn s.cfg.secondary s).length, (presentIn s.cfg.secondary s).length)
  | .dClear _ => (0, 0, 0)
  | .dIsLed _ _ => (0, 0, 0)
  | .dSetLed _ _ => (0, 0, 0)
  | .dClrLed _ _ => (0, 0, 0)
  | .dIsPressed _ _ => (0, 0, 0)
  | .dWasPressed _ _ => (0, 0, 0)
  | .dJustPressed _ _ => (0, 0, 0)
  | .dJustReleased _ _ => (0, 0, 0)
  | .gClear => (0, 0, 0)
  | .gIsLed _ => (0, 0, 0)
  | .gSetLed _ => (0, 0, 0)
  | .gClrLed _ => (0, 0, 0)
  | .gIsPressed _ => (0, 0, 0)
  | .gWasPressed _ => (0, 0, 0)
  | .gJustPressed _ => (0, 0, 0)
  | .gJustReleased _ => (0, 0, 0)
  | .xy2i _ _ => (0, 0, 0)
  | .i2xy _ => (0, 0, 0)

/-- Whether an event opens a write transaction. -/
def isOpen (e : Event) : Bool :=
  match e with
  | .tb _ => true
  | .tw _ => false
  | .te => false
  | .tr _ _ _ => false

/-- Whether an event writes a byte. -/
def isByte (e : Event) : Bool :=
  match e with
  | .tb _ => false
  | .tw _ => true
  | .te => false
  | .tr _ _ _ => false

/-- Whether an event is a read. -/
def isRead (e : Event) : Bool :=
  match e with
  | .tb _ => false
  | .tw _ => false
  | .te => false
  | .tr _ _ _ => true

/-! ### Invariants of a run -/

/-- Display bits that no local index reaches are 0 (R10, R180). -/
def UnmappedDisplayZero (s : State) : Prop :=
  ∀ (k : SlotNo) (w : Fin 8) (b : Fin 16), s.slots[k].disp[w].getLsbD b.val = true →
    ∃ i : LocalIdx, s.cfg.ledLut[i].toNat = 16 * w.val + b.val

/-- A slot that was never bound was never scanned: its key buffers hold their reset value (R18). -/
def UnboundUnscanned (s : State) : Prop :=
  ∀ k : SlotNo, s.slots[k].bound = false →
    s.slots[k].keyCur = #v[0, 0, 0, 0, 0, 0] ∧ s.slots[k].keyPrev = #v[0, 0, 0, 0, 0, 0]

/-- An absent slot is as reset left it (R16; log 10). -/
def AbsentUntouched (s : State) : Prop :=
  ∀ k : SlotNo, s.cfg.present[k] = false → s.slots[k] = Slot.reset

/-- The trace is a sequence of completed transactions, none interleaved with another (R23), each of a shape that the map
of R44 lists or a 6-byte read (R47). -/
def TraceFramed (s : State) : Prop :=
  (frame s.trace).ok = true ∧ (frame s.trace).opened = none ∧ ∀ t ∈ (frame s.trace).done, t.ok = true

/-- Every command taken from the host has been answered once (R62, R20). -/
def OneResponsePerCommand (s : State) : Prop := s.responses.length = s.pos

/-- The reads answered are the reads in the trace (R47). -/
def ReadsCounted (s : State) : Prop := s.draws = s.trace.countP isRead

/-- The invariant of a run under a well-formed configuration. -/
def Inv (s : State) : Prop :=
  s.cfg.wellFormed = true ∧ UnmappedDisplayZero s ∧ UnboundUnscanned s ∧ AbsentUntouched s ∧ TraceFramed s ∧
    OneResponsePerCommand s ∧ ReadsCounted s

/-- `o` with the state it carries changed by `f`. -/
def onState (f : State → State) (o : Host.Outcome State Fault Refusal) : Host.Outcome State Fault Refusal :=
  match o with
  | .next s => .next (f s)
  | .fault (.unboundAddress k s) => .fault (.unboundAddress k (f s))
  | .refused r => .refused r

/-- The same state with the state of slot `j` replaced. -/
def withSlot (j : SlotNo) (sl : Slot) (s : State) : State := { s with slots := s.slots.set j sl }

/-- Two slots that agree in all but the address of a slot that is not bound. -/
def SlotsAgree (x y : Slot) : Prop :=
  x.disp = y.disp ∧ x.keyCur = y.keyCur ∧ x.keyPrev = y.keyPrev ∧ x.bound = y.bound ∧
    (x.bound = true → x.addr = y.addr)

/-- Two states that agree in all but the addresses of slots that are not bound (R17, U3). -/
def Agree (s t : State) : Prop :=
  (∀ k : SlotNo, SlotsAgree s.slots[k] t.slots[k]) ∧ s.cfg = t.cfg ∧ s.trace = t.trace ∧
    s.responses = t.responses ∧ s.pending = t.pending ∧ s.pos = t.pos ∧ s.answers = t.answers ∧ s.draws = t.draws

/-- Two outcomes of the same kind, for the same reason, with states that agree. -/
def OutcomesAgree (o p : Host.Outcome State Fault Refusal) : Prop :=
  match o, p with
  | .next s, .next t => Agree s t
  | .fault (.unboundAddress k s), .fault (.unboundAddress j t) => k = j ∧ Agree s t
  | .refused r, .refused q => r = q
  | _, _ => False

/-! ### Safe runs -/

/-- A host list that holds nothing but defined commands, one at a time (R65, R177). -/
def Defined (l : List HostInput) : Prop := ∀ x ∈ l, ∃ w i, x = .command w ∧ decode w = .ok i

/-- Every present slot has had its `D_INIT` (R172, step 1). -/
def Booted (s : State) : Prop := ∀ k : SlotNo, s.cfg.present[k] = true → s.slots[k].bound = true

/-- A run from `s` never faults and is never refused, however long it is. -/
def SafeFrom (s : State) : Prop := ∀ n : Nat, ∃ t : State, Sys2Proof.core.run n s = .next t

end Machine

end Sys2Proof
end

