-- ==== Sys2Proof/Certificates/Slice0/Obligations.lean ====
section
/-! DEFINITION. The statements for the provers. Each docstring names the rule or section of spec/ it rests on; "log n" is
notes/assumptions/n.md. Wherever a statement speaks of a dead slot, that an operand above 3 is one is the spec's own choice
(D11, log 15); wherever it reads an LED table entry, that its upper nibble is a word index is the spec's own reading (D16,
log 11). -/

open Sys2Proof Sys2Proof.Machine

/-! ### Encoding (`30_encoding.md`) -/

/-- R63, R64, R69: decoding the word of any command, with every operand at every value, gives it back. -/
def Obligations.EncodedCommandDecodesToItself : Prop :=
  ∀ i : Instr, decode (encode i) = .ok i

/-- R64, R68, R69: a word that decodes is the word of its command on every bit the command uses; the other bits are the
ones the encoder sets to 0. -/
def Obligations.DecodedWordReEncodesToItsUsedBits : Prop :=
  ∀ (w : Word) (i : Instr), decode w = .ok i → encode i = w &&& i.usedMask

/-- R64: two words that differ in unused fields only are the same command and behave alike in every state. -/
def Obligations.UnusedFieldsAreIgnored : Prop :=
  ∀ (w w' : Word) (i : Instr), decode w = .ok i → w &&& i.usedMask = w' &&& i.usedMask →
    decode w' = .ok i ∧ ∀ s : State, step (s.offer w') = step (s.offer w)

/-- R65 (and R157): exactly the reserved opcodes have no command, and the step refuses them by name. -/
def Obligations.ReservedOpcodesAreRefused : Prop :=
  ∀ w : Word, (ReservedOp (w.toNat / 2 ^ 24) ↔ ∀ i : Instr, decode w ≠ .ok i) ∧
    (ReservedOp (w.toNat / 2 ^ 24) → ∀ s : State, s.cfg.wellFormed = true →
      step (s.offer w) = .refused (.reservedOpcode w))

/-- Words written out bit by bit from R60 and R63, one of each family, and what they stand for. -/
def Obligations.WrittenWordsDecode : Prop :=
  decode 0b00010000_00000010_01110010_00000000 = .ok (.dInit 2 0x72 0) ∧
  decode 0b00011001_00000000_00000011_00000000 = .ok (.dSetLed 0 3) ∧
  decode 0b00011110_00000000_00000010_00000000 = .ok (.dJustPressed 0 2) ∧
  decode 0b00100001_00000000_00010100_00000000 = .ok (.gBright 20) ∧
  decode 0b00101100_00000000_00100011_00000000 = .ok (.gIsPressed 35) ∧
  decode 0b00110000_00000000_00000011_00000010 = .ok (.xy2i 3 2) ∧
  decode 0b00110001_11111111_00010011_11111111 = .ok (.i2xy 19) ∧
  decode 0b00100000_00000000_01110000_00010101 = .error (.reservedOpcode 0x20)

/-! ### The step (`10_state.md` R20, `60_exceptions.md` R157) -/

/-- R20: the step runs the command the host presents; around it the host's list moves past the word and the position
advances by 1. -/
def Obligations.StepRunsThePresentedCommand : Prop :=
  ∀ (s : State) (w : Word) (rest : List HostInput) (i : Instr), s.cfg.wellFormed = true →
    s.pending = .command w :: rest → decode w = .ok i →
      step s = exec i { s with pending := rest, pos := s.pos + 1 }

/-- R157: the three refusals, each with its cause, and no other; a command itself never refuses. -/
def Obligations.RefusalsNameTheirCause : Prop :=
  (∀ (s : State) (r : Refusal), step s = .refused r ↔
    ((¬ s.cfg.LedLutOk ∨ ¬ s.cfg.KeyLutOk ∨ ¬ s.cfg.CoordTablesOk ∨ ¬ s.cfg.SomePresent) ∧ r = .illFormedTables) ∨
    (s.cfg.wellFormed = true ∧ (∃ w₁ w₂ rest, s.pending = .concurrent w₁ w₂ :: rest) ∧ r = .concurrentAccess) ∨
    (s.cfg.wellFormed = true ∧ ∃ w rest, s.pending = .command w :: rest ∧ (∀ i, decode w ≠ .ok i) ∧
      r = .reservedOpcode w)) ∧
  ∀ (i : Instr) (s : State) (r : Refusal), exec i s ≠ .refused r

/-- The model's choice (log 2, from R183): with no command presented the unit waits, unchanged. -/
def Obligations.UnitWaitsWithoutACommand : Prop :=
  ∀ s : State, s.cfg.wellFormed = true → s.pending = [] → step s = .next s

/-! ### Faults and completion (`60_exceptions.md`) -/

/-- R156: a command faults exactly when it reaches an unbound present slot; the fault names the first such slot, which
it leaves as it was. That the slots are reached in ascending order is the spec's choice (D18, log 12). -/
def Obligations.FaultsExactlyAtTheFirstUnboundSlotReached : Prop :=
  ∀ (i : Instr) (s : State),
    (∀ f, exec i s = .fault f → ∃ k t, f = .unboundAddress k t ∧ Reaches i s k ∧ s.slots[k].bound = false ∧
      (∀ j, j < k → Reaches i s j → s.slots[j].bound = true) ∧ t.slots[k] = s.slots[k]) ∧
    (∀ k, Reaches i s k → s.slots[k].bound = false → ∃ f, exec i s = .fault f)

/-- R150 with R156: every command completes, for every operand value, with exactly one response, unless it reaches an
unbound slot. -/
def Obligations.EveryCommandCompletesWithOneResponse : Prop :=
  ∀ (i : Instr) (s : State), (∀ k, Reaches i s k → s.slots[k].bound = true) →
    ∃ t r, exec i s = .next t ∧ t.responses = s.responses ++ [r]

/-- R66: a `D_` command whose slot operand is above 3 or names an absent slot is absorbed. (For `a > 3` the spec marks
this as its own extension, D11.) -/
def Obligations.DCommandsOnADeadSlotAreAbsorbed : Prop :=
  ∀ (s : State) (a b c : Byte), DeadSlot s a →
    Answers (.dInit a b c) s 0 ∧ Answers (.dBright a b) s 0 ∧ Answers (.dBlink a b) s 0 ∧
    Answers (.dFlush a) s 0 ∧ Answers (.dClear a) s 0 ∧ Answers (.dScan a) s 0 ∧
    Answers (.dIsLed a b) s 0 ∧ Answers (.dSetLed a b) s 0 ∧ Answers (.dClrLed a b) s 0 ∧
    Answers (.dIsPressed a b) s 0 ∧ Answers (.dWasPressed a b) s 0 ∧
    Answers (.dJustPressed a b) s 0 ∧ Answers (.dJustReleased a b) s 0

/-! ### Family 40, chip control (`40_chip_control.md`) -/

/-- R81 (framing D12, bytes D13, address bit 7 D10): `D_INIT` binds the address, bound before or not, and sends the four
start-up bytes in order, each a transaction; nothing else changes. On a dead slot it is absorbed. -/
def Obligations.DInitBindsTheAddressAndStartsTheChip : Prop :=
  ∀ (s : State) (addr brightness : Byte),
    (∀ k : SlotNo, s.cfg.present[k] = true →
      exec (.dInit (slotByte k) addr brightness) s = .next { s with
        slots := s.slots.set k { s.slots[k] with addr := addr.setWidth 7, bound := true }
        trace := s.trace ++ [.tb (addr.setWidth 7), .tw 0x21, .te, .tb (addr.setWidth 7), .tw 0x81, .te,
          .tb (addr.setWidth 7), .tw (0xE0 ||| if 15 < brightness.toNat then 15 else brightness), .te,
          .tb (addr.setWidth 7), .tw 0xA1, .te]
        responses := s.responses ++ [0] }) ∧
    ∀ a : Byte, DeadSlot s a → Answers (.dInit a addr brightness) s 0

/-- R82: `D_BRIGHT` sends one command byte with the level clamped to 15, and stores nothing; unbound it faults with
nothing changed; on a dead slot it is absorbed. -/
def Obligations.DBrightSendsTheClampedLevel : Prop :=
  ∀ (s : State) (level : Byte),
    (∀ k : SlotNo, s.cfg.present[k] = true → s.slots[k].bound = true →
      exec (.dBright (slotByte k) level) s = .next { s with
        trace := s.trace ++ [.tb s.slots[k].addr, .tw (0xE0 ||| if 15 < level.toNat then 15 else level), .te]
        responses := s.responses ++ [0] }) ∧
    (∀ k : SlotNo, s.cfg.present[k] = true → s.slots[k].bound = false →
      exec (.dBright (slotByte k) level) s = .fault (.unboundAddress k s)) ∧
    ∀ a : Byte, DeadSlot s a → Answers (.dBright a level) s 0

/-- R83: `D_BLINK` sends the blink byte of the rate, a rate above 3 as OFF; unbound it faults with nothing changed; on a
dead slot it is absorbed. -/
def Obligations.DBlinkSendsTheRateOrOff : Prop :=
  ∀ (s : State) (rate : Byte),
    (∀ k : SlotNo, s.cfg.present[k] = true → s.slots[k].bound = true →
      exec (.dBlink (slotByte k) rate) s = .next { s with
        trace := s.trace ++
          [.tb s.slots[k].addr, .tw (0x80 ||| 0x01 ||| ((if 3 < rate.toNat then 0 else rate) <<< 1)), .te]
        responses := s.responses ++ [0] }) ∧
    (∀ k : SlotNo, s.cfg.present[k] = true → s.slots[k].bound = false →
      exec (.dBlink (slotByte k) rate) s = .fault (.unboundAddress k s)) ∧
    ∀ a : Byte, DeadSlot s a → Answers (.dBlink a rate) s 0

/-! ### Family 41, the LED buffer (`41_led_buffer.md`) -/

/-- R91 with R90: `D_ISLED` answers the bit its index names and changes nothing; out of range, or on a dead slot, it
answers 0. The word of that bit is the table entry's upper nibble by D16 (log 11); operands above 3 are dead by D11 (log
15). -/
def Obligations.DIsLedAnswersItsBit : Prop :=
  ∀ s : State,
    (∀ (k : SlotNo) (i : LocalIdx), s.cfg.present[k] = true →
      Answers (.dIsLed (slotByte k) (localByte i)) s (truth (ledBit s.cfg s.slots[k].disp i))) ∧
    ∀ a b : Byte, DeadSlot s a ∨ 15 < b.toNat → Answers (.dIsLed a b) s 0

/-- R92 with R90: `D_SETLED` sets the bit its index names, and no other bit, word, slot, key buffer or event changes; out
of range, or on a dead slot, it is absorbed. Which bit that is rests on D16 (log 11); operands above 3 on D11 (log 15). -/
def Obligations.DSetLedSetsOneBit : Prop :=
  ∀ s : State,
    (∀ (k : SlotNo) (i : LocalIdx), s.cfg.present[k] = true →
      ∃ d : DispBuf, exec (.dSetLed (slotByte k) (localByte i)) s = .next { s with
          slots := s.slots.set k { s.slots[k] with disp := d }, responses := s.responses ++ [0] } ∧
        ∀ (w : Fin 8) (b : Fin 16), d[w].getLsbD b.val = true ↔
          s.cfg.ledLut[i].toNat = 16 * w.val + b.val ∨ s.slots[k].disp[w].getLsbD b.val = true) ∧
    ∀ a b : Byte, DeadSlot s a ∨ 15 < b.toNat → Answers (.dSetLed a b) s 0

/-- R93 with R90: `D_CLRLED` clears the bit its index names, and nothing else changes; out of range, or on a dead slot, it
is absorbed. Which bit that is rests on D16 (log 11); operands above 3 on D11 (log 15). -/
def Obligations.DClrLedClearsOneBit : Prop :=
  ∀ s : State,
    (∀ (k : SlotNo) (i : LocalIdx), s.cfg.present[k] = true →
      ∃ d : DispBuf, exec (.dClrLed (slotByte k) (localByte i)) s = .next { s with
          slots := s.slots.set k { s.slots[k] with disp := d }, responses := s.responses ++ [0] } ∧
        ∀ (w : Fin 8) (b : Fin 16), d[w].getLsbD b.val = true ↔
          s.cfg.ledLut[i].toNat ≠ 16 * w.val + b.val ∧ s.slots[k].disp[w].getLsbD b.val = true) ∧
    ∀ a b : Byte, DeadSlot s a ∨ 15 < b.toNat → Answers (.dClrLed a b) s 0

/-- R94 (framing D23): `D_FLUSH` sends one transaction of 17 bytes, the register byte and then each word low byte first,
and changes nothing; unbound it faults with nothing changed; on a dead slot there is no transaction. -/
def Obligations.DFlushSendsSeventeenBytes : Prop :=
  ∀ s : State,
    (∀ k : SlotNo, s.cfg.present[k] = true → s.slots[k].bound = true →
      exec (.dFlush (slotByte k)) s = .next { s with
        trace := s.trace ++ .tb s.slots[k].addr :: ((flushBytes s.slots[k].disp).map .tw ++ [.te])
        responses := s.responses ++ [0] }) ∧
    (∀ k : SlotNo, s.cfg.present[k] = true → s.slots[k].bound = false →
      exec (.dFlush (slotByte k)) s = .fault (.unboundAddress k s)) ∧
    ∀ a : Byte, DeadSlot s a → Answers (.dFlush a) s 0

/-- R95: `D_CLEAR` zeroes the whole buffer of its slot and nothing else, bound or not; on a dead slot, operands above 3
being dead by D11 (log 15), it is absorbed. -/
def Obligations.DClearZeroesTheBuffer : Prop :=
  ∀ s : State,
    (∀ k : SlotNo, s.cfg.present[k] = true →
      exec (.dClear (slotByte k)) s = .next { s with
        slots := s.slots.set k { s.slots[k] with disp := #v[0, 0, 0, 0, 0, 0, 0, 0] }
        responses := s.responses ++ [0] }) ∧
    ∀ a : Byte, DeadSlot s a → Answers (.dClear a) s 0

/-- R96: the six laws of the family, for every well-formed LED table and every present slot. -/
def Obligations.LedBufferLaws : Prop :=
  ∀ (s : State) (k : SlotNo), s.cfg.LedLutOk → s.cfg.present[k] = true →
    (∀ i : LocalIdx, ∃ t u,
      exec (.dSetLed (slotByte k) (localByte i)) s = .next t ∧
      Answers (.dIsLed (slotByte k) (localByte i)) t 1 ∧
      exec (.dClrLed (slotByte k) (localByte i)) t = .next u ∧
      Answers (.dIsLed (slotByte k) (localByte i)) u 0) ∧
    (∀ i j : LocalIdx, i ≠ j → ∀ t r,
      exec (.dSetLed (slotByte k) (localByte i)) s = .next t ∨ exec (.dClrLed (slotByte k) (localByte i)) s = .next t →
      (Answers (.dIsLed (slotByte k) (localByte j)) t r ↔ Answers (.dIsLed (slotByte k) (localByte j)) s r)) ∧
    (∃ t, exec (.dClear (slotByte k)) s = .next t ∧ ∀ b, Answers (.dIsLed (slotByte k) b) t 0) ∧
    (∀ (i : Instr) (t : State) (j : SlotNo), i.addressed = some k.val → j ≠ k → exec i s = .next t →
      ∀ b r, Answers (.dIsLed (slotByte j) b) t r ↔ Answers (.dIsLed (slotByte j) b) s r) ∧
    (∀ b : Byte, 15 < b.toNat → Answers (.dIsLed (slotByte k) b) s 0 ∧ Answers (.dSetLed (slotByte k) b) s 0 ∧
      Answers (.dClrLed (slotByte k) b) s 0)

/-- R55: the 16 data bytes of a flush are what a 128-bit register loaded with the buffer shifts out, low byte first. -/
def Obligations.FlushShiftsOutTheBuffer : Prop :=
  ∀ (s : State) (k : SlotNo), s.cfg.present[k] = true → s.slots[k].bound = true →
    ∃ t, exec (.dFlush (slotByte k)) s = .next t ∧ t.slots = s.slots ∧
      t.trace = s.trace ++ .tb s.slots[k].addr :: .tw 0x00 ::
        ((shiftOut 16 (shiftRegister s.slots[k].disp)).map .tw ++ [.te])

/-! ### Family 42, the key edge detector (`42_key_edge.md`) -/

/-- R101 (framing and byte order D21, D23): `D_SCAN` rotates the pair, reads 6 bytes into the current buffer, whatever
they are, and answers whether any byte changed; unbound it faults before any change; on a dead slot nothing is scanned. -/
def Obligations.DScanRotatesAndReads : Prop :=
  ∀ s : State,
    (∀ k : SlotNo, s.cfg.present[k] = true → s.slots[k].bound = true →
      exec (.dScan (slotByte k)) s = .next { s with
        slots := s.slots.set k { s.slots[k] with keyPrev := s.slots[k].keyCur, keyCur := s.answerAt 0 }
        trace := s.trace ++ [.tb s.slots[k].addr, .tw 0x40, .te, .tr s.slots[k].addr 6 (s.answerAt 0)]
        answers := s.answers.tail
        draws := s.draws + 1
        responses := s.responses ++ [truth (decide (s.answerAt 0 ≠ s.slots[k].keyCur))] }) ∧
    (∀ k : SlotNo, s.cfg.present[k] = true → s.slots[k].bound = false →
      exec (.dScan (slotByte k)) s = .fault (.unboundAddress k s)) ∧
    ∀ a : Byte, DeadSlot s a → Answers (.dScan a) s 0

/-- R100, R102 to R105: each predicate answers its bit, or its combination of the two bits, and changes nothing; out of
range, or on a dead slot, operands above 3 being dead by D11 (log 15), it answers 0. -/
def Obligations.DKeyPredicatesAnswerTheirBits : Prop :=
  ∀ s : State,
    (∀ (k : SlotNo) (i : LocalIdx), s.cfg.present[k] = true →
      Answers (.dIsPressed (slotByte k) (localByte i)) s (truth (keyBit s.cfg s.slots[k].keyCur i)) ∧
      Answers (.dWasPressed (slotByte k) (localByte i)) s (truth (keyBit s.cfg s.slots[k].keyPrev i)) ∧
      Answers (.dJustPressed (slotByte k) (localByte i)) s
        (truth (keyBit s.cfg s.slots[k].keyCur i && !keyBit s.cfg s.slots[k].keyPrev i)) ∧
      Answers (.dJustReleased (slotByte k) (localByte i)) s
        (truth (!keyBit s.cfg s.slots[k].keyCur i && keyBit s.cfg s.slots[k].keyPrev i))) ∧
    ∀ a b : Byte, DeadSlot s a ∨ 15 < b.toNat →
      Answers (.dIsPressed a b) s 0 ∧ Answers (.dWasPressed a b) s 0 ∧
      Answers (.dJustPressed a b) s 0 ∧ Answers (.dJustReleased a b) s 0

/-- R106: for all operands, in range or not, the edge predicates are those combinations of the other two, never both
true; and the predicates of a slot change only when a scan of that slot runs. For slot operands above 3 the answers rest on
D11 (log 15). -/
def Obligations.EdgePredicateLaws : Prop :=
  (∀ (s : State) (a b : Byte), ∃ cur prev jp jr : Bool,
    Answers (.dIsPressed a b) s (truth cur) ∧ Answers (.dWasPressed a b) s (truth prev) ∧
    Answers (.dJustPressed a b) s (truth jp) ∧ Answers (.dJustReleased a b) s (truth jr) ∧
    jp = (cur && !prev) ∧ jr = (!cur && prev) ∧ ¬ (jp = true ∧ jr = true)) ∧
  ∀ (i : Instr) (s t : State) (a : Byte), (∀ k : SlotNo, a = slotByte k → ¬ (Scans i ∧ Reaches i s k)) →
    exec i s = .next t → ∀ (b : Byte) (r : Resp),
    (Answers (.dIsPressed a b) t r ↔ Answers (.dIsPressed a b) s r) ∧
    (Answers (.dWasPressed a b) t r ↔ Answers (.dWasPressed a b) s r) ∧
    (Answers (.dJustPressed a b) t r ↔ Answers (.dJustPressed a b) s r) ∧
    (Answers (.dJustReleased a b) t r ↔ Answers (.dJustReleased a b) s r)

/-- R107, R175: after a scan its answer is the OR-reduction of the XOR of the two 48-bit buffers, and if it is false every
edge of the slot is gone. -/
def Obligations.ScanResultIsTheXorReduction : Prop :=
  ∀ (s : State) (k : SlotNo), s.cfg.present[k] = true → s.slots[k].bound = true →
    ∃ t, exec (.dScan (slotByte k)) s = .next t ∧
      t.responses = s.responses ++ [truth (decide (keys48 t.slots[k].keyCur ^^^ keys48 t.slots[k].keyPrev ≠ 0))] ∧
      (t.responses = s.responses ++ [0] → ∀ b,
        Answers (.dJustPressed (slotByte k) b) t 0 ∧ Answers (.dJustReleased (slotByte k) b) t 0)

/-- R12: no command other than a scan writes a key buffer, and a scan leaves in `KEY_PREV` what `KEY_CUR` held before it,
as a pair or not at all. -/
def Obligations.OnlyScansWriteTheKeyBuffers : Prop :=
  ∀ (i : Instr) (s t : State) (k : SlotNo), exec i s = .next t →
    (t.slots[k].keyCur = s.slots[k].keyCur ∧ t.slots[k].keyPrev = s.slots[k].keyPrev) ∨
    (Scans i ∧ t.slots[k].keyPrev = s.slots[k].keyCur)

/-! ### Family 43, the aggregate (`43_aggregate.md`) -/

/-- R112 (order D18): `G_BRIGHT` sends each present slot its own transaction with the clamped level. -/
def Obligations.GBrightSendsToEveryPresentSlot : Prop :=
  ∀ (s : State) (level : Byte),
    BroadcastSends (.gBright level) (fun _ => [0xE0 ||| if 15 < level.toNat then 15 else level]) s

/-- R113 (order D18): `G_BLINK` sends each present slot its own transaction with the rate, a rate above 3 as OFF. -/
def Obligations.GBlinkSendsToEveryPresentSlot : Prop :=
  ∀ (s : State) (rate : Byte),
    BroadcastSends (.gBlink rate) (fun _ => [0x81 + 2 * if 3 < rate.toNat then 0 else rate]) s

/-- R114 (order D18): `G_FLUSH` sends each present slot the 17 bytes of its own buffer. -/
def Obligations.GFlushSendsEveryPresentBuffer : Prop :=
  ∀ s : State, BroadcastSends .gFlush (fun k => flushBytes s.slots[k].disp) s

/-- R115: `G_CLEAR` zeroes the display buffer of every present slot and nothing else. -/
def Obligations.GClearZeroesEveryPresentBuffer : Prop :=
  ∀ s : State, ∃ v : Vector Slot 4,
    exec .gClear s = .next { s with slots := v, responses := s.responses ++ [0] } ∧
    ∀ k : SlotNo, v[k] =
      if s.cfg.present[k] = true then { s.slots[k] with disp := #v[0, 0, 0, 0, 0, 0, 0, 0] } else s.slots[k]

/-- R116 with R111 (order D18): `G_SCAN` scans every present slot, none skipped for an earlier result, and answers the OR. -/
def Obligations.GScanScansEveryPresentSlot : Prop :=
  ∀ s : State, GroupScan .gScan SlotSet.all s

/-- R117 with R111: `G_SCANP` scans the present slots of the configured primary set only. That the set is a parameter
is D19 (log 20); its value in the spec is {0, 1}. -/
def Obligations.GScanPScansThePrimarySet : Prop :=
  ∀ s : State, GroupScan .gScanP s.cfg.primary s

/-- R118 with R111: `G_SCANS` scans the present slots of the configured secondary set only (D19, log 20). -/
def Obligations.GScanSScansTheSecondarySet : Prop :=
  ∀ s : State, GroupScan .gScanS s.cfg.secondary s

/-- R126, law 2: a completed `G_SCAN` answers true iff the key bytes of at least one present slot changed. -/
def Obligations.GScanIsTrueIffSomeSlotChanged : Prop :=
  ∀ s t : State, exec .gScan s = .next t →
    (t.responses = s.responses ++ [1] ↔
      ∃ k : SlotNo, s.cfg.present[k] = true ∧ t.slots[k].keyCur ≠ s.slots[k].keyCur)

/-- R126, law 3: with the sets {0, 1} and {2, 3}, `G_SCAN` is `G_SCANP` followed by `G_SCANS`, with the OR of their
responses for its one. -/
def Obligations.GScanIsPrimaryThenSecondary : Prop :=
  ∀ s : State, s.cfg.primary = #v[true, true, false, false] → s.cfg.secondary = #v[false, false, true, true] →
    ∀ t : State, exec .gScan s = .next t ↔
      ∃ u v c d, exec .gScanP s = .next u ∧ u.responses = s.responses ++ [truth c] ∧
        exec .gScanS u = .next v ∧ v.responses = u.responses ++ [truth d] ∧
        t = { v with responses := s.responses ++ [truth (c || d)] }

/-- R110 (and R126, law 1): a routed command is its `D_` form on slot `k / 16` and local index `k % 16`; out of range, or
with that slot absent, it is absorbed. -/
def Obligations.RoutedCommandsAreThePerSlotCommands : Prop :=
  ∀ s : State,
    (∀ (k : SlotNo) (i : LocalIdx), s.cfg.present[k] = true →
      let b : Byte := BitVec.ofNat 8 (16 * k.val + i.val)
      exec (.gIsLed b) s = exec (.dIsLed (slotByte k) (localByte i)) s ∧
      exec (.gSetLed b) s = exec (.dSetLed (slotByte k) (localByte i)) s ∧
      exec (.gClrLed b) s = exec (.dClrLed (slotByte k) (localByte i)) s ∧
      exec (.gIsPressed b) s = exec (.dIsPressed (slotByte k) (localByte i)) s ∧
      exec (.gWasPressed b) s = exec (.dWasPressed (slotByte k) (localByte i)) s ∧
      exec (.gJustPressed b) s = exec (.dJustPressed (slotByte k) (localByte i)) s ∧
      exec (.gJustReleased b) s = exec (.dJustReleased (slotByte k) (localByte i)) s) ∧
    ∀ b : Byte, 63 < b.toNat ∨ DeadSlot s (b / 16) →
      Answers (.gIsLed b) s 0 ∧ Answers (.gSetLed b) s 0 ∧ Answers (.gClrLed b) s 0 ∧
      Answers (.gIsPressed b) s 0 ∧ Answers (.gWasPressed b) s 0 ∧
      Answers (.gJustPressed b) s 0 ∧ Answers (.gJustReleased b) s 0

/-- R119, R122 to R125: each routed query of a present slot answers the bit, or the combination of the two bits, that its
flat index names, and changes nothing; out of range, or with that slot absent, it answers 0. The bit `G_ISLED` reads rests on
D16 (log 11). -/
def Obligations.RoutedQueriesAnswerTheirBits : Prop :=
  ∀ s : State,
    (∀ (k : SlotNo) (i : LocalIdx), s.cfg.present[k] = true →
      let b : Byte := BitVec.ofNat 8 (16 * k.val + i.val)
      let cur := keyBit s.cfg s.slots[k].keyCur i
      let prev := keyBit s.cfg s.slots[k].keyPrev i
      Answers (.gIsLed b) s (truth (ledBit s.cfg s.slots[k].disp i)) ∧
      Answers (.gIsPressed b) s (truth cur) ∧ Answers (.gWasPressed b) s (truth prev) ∧
      Answers (.gJustPressed b) s (truth (cur && !prev)) ∧ Answers (.gJustReleased b) s (truth (!cur && prev))) ∧
    ∀ b : Byte, 63 < b.toNat ∨ DeadSlot s (b / 16) →
      Answers (.gIsLed b) s 0 ∧ Answers (.gIsPressed b) s 0 ∧ Answers (.gWasPressed b) s 0 ∧
      Answers (.gJustPressed b) s 0 ∧ Answers (.gJustReleased b) s 0

/-- R120, R121: a routed set or clear of a present slot writes the one bit its flat index names and nothing else; out of
range, or with that slot absent, it has no effect. Which bit that is rests on D16 (log 11). -/
def Obligations.RoutedWritesChangeOneBit : Prop :=
  ∀ s : State,
    (∀ (k : SlotNo) (i : LocalIdx), s.cfg.present[k] = true →
      let b : Byte := BitVec.ofNat 8 (16 * k.val + i.val)
      ∃ d e : DispBuf,
        exec (.gSetLed b) s = .next { s with
          slots := s.slots.set k { s.slots[k] with disp := d }, responses := s.responses ++ [0] } ∧
        exec (.gClrLed b) s = .next { s with
          slots := s.slots.set k { s.slots[k] with disp := e }, responses := s.responses ++ [0] } ∧
        ∀ (w : Fin 8) (n : Fin 16),
          (d[w].getLsbD n.val = true ↔
            s.cfg.ledLut[i].toNat = 16 * w.val + n.val ∨ s.slots[k].disp[w].getLsbD n.val = true) ∧
          (e[w].getLsbD n.val = true ↔
            s.cfg.ledLut[i].toNat ≠ 16 * w.val + n.val ∧ s.slots[k].disp[w].getLsbD n.val = true)) ∧
    ∀ b : Byte, 63 < b.toNat ∨ DeadSlot s (b / 16) → Answers (.gSetLed b) s 0 ∧ Answers (.gClrLed b) s 0

/-! ### Family 44, the coordinates (`44_coordinate.md`) -/

/-- R141 (marker and `y > 7`: the spec's choice D20, log 13): `XY2I` answers its table entry, or 255, and changes
nothing. -/
def Obligations.Xy2iAnswersTheIndexOrTheMarker : Prop :=
  ∀ s : State,
    (∀ x y : Coord, Answers (.xy2i (coordByte x) (coordByte y)) s (BitVec.ofNat 16 s.cfg.xy2i[x][y].val)) ∧
    ∀ b c : Byte, 7 < b.toNat ∨ 7 < c.toNat → Answers (.xy2i b c) s 0x00FF

/-- R142: `I2XY` answers x in the high byte and y in the low byte, or (255, 255), and changes nothing. -/
def Obligations.I2xyAnswersThePairOrTheSentinel : Prop :=
  ∀ s : State,
    (∀ k : FlatIdx, Answers (.i2xy (flatByte k)) s
      (BitVec.ofNat 16 (256 * s.cfg.i2xy[k].1.val + s.cfg.i2xy[k].2.val))) ∧
    ∀ b : Byte, 63 < b.toNat → Answers (.i2xy b) s 0xFFFF

/-- R143: the two look-ups are inverse to each other on every in-range input, and the sentinels do not round-trip. -/
def Obligations.CoordinateLookUpsAreInverse : Prop :=
  ∀ s : State, s.cfg.CoordTablesOk →
    (∀ x y : Coord, ∃ k : FlatIdx, Answers (.xy2i (coordByte x) (coordByte y)) s (BitVec.ofNat 16 k.val) ∧
      Answers (.i2xy (flatByte k)) s (BitVec.ofNat 16 (256 * x.val + y.val))) ∧
    (∀ k : FlatIdx, ∃ x y : Coord, Answers (.i2xy (flatByte k)) s (BitVec.ofNat 16 (256 * x.val + y.val)) ∧
      Answers (.xy2i (coordByte x) (coordByte y)) s (BitVec.ofNat 16 k.val)) ∧
    Answers (.i2xy 255) s 0xFFFF ∧ Answers (.xy2i 255 255) s 0x00FF

/-! ### The whole machine -/

/-- R17, R171: what reset leaves, under every configuration: buffers zero, nothing bound, trace empty. -/
def Obligations.ResetLeavesBuffersZeroAndNothingBound : Prop :=
  ∀ (cfg : Config) (k : SlotNo), (State.initial cfg).cfg = cfg ∧ (State.initial cfg).trace = [] ∧
    (∀ w : Fin 8, (State.initial cfg).slots[k].disp[w] = 0) ∧
    (∀ b : Fin 6, (State.initial cfg).slots[k].keyCur[b] = 0 ∧ (State.initial cfg).slots[k].keyPrev[b] = 0) ∧
    (State.initial cfg).slots[k].bound = false

/-- R18, R110: after reset every LED test and every key predicate, of a slot or routed, answers 0, for all operands (for
slot operands above 3 by D11, log 15). -/
def Obligations.AfterResetNothingIsLitOrPressed : Prop :=
  ∀ (cfg : Config) (a b : Byte),
    Answers (.dIsLed a b) (State.initial cfg) 0 ∧ Answers (.dIsPressed a b) (State.initial cfg) 0 ∧
    Answers (.dWasPressed a b) (State.initial cfg) 0 ∧ Answers (.dJustPressed a b) (State.initial cfg) 0 ∧
    Answers (.dJustReleased a b) (State.initial cfg) 0 ∧ Answers (.gIsLed b) (State.initial cfg) 0 ∧
    Answers (.gIsPressed b) (State.initial cfg) 0 ∧ Answers (.gWasPressed b) (State.initial cfg) 0 ∧
    Answers (.gJustPressed b) (State.initial cfg) 0 ∧ Answers (.gJustReleased b) (State.initial cfg) 0

/-- The reset state of every well-formed configuration meets the invariant (that an absent slot's state is its reset state
is the model's choice, log 10). -/
def Obligations.InitialStateMeetsTheInvariant : Prop :=
  ∀ cfg : Config, cfg.wellFormed = true → Inv (State.initial cfg)

/-- Every step keeps the invariant: unmapped display bits stay 0 (R10), an unbound slot stays unscanned (R18), an absent
slot untouched (R16, log 10), the trace a sequence of completed transactions of the shapes of R44 (R23), one response per
command (R62), the reads counted (R47, log 5). -/
def Obligations.EveryStepKeepsTheInvariant : Prop :=
  ∀ s t : State, Inv s → step s = .next t → Inv t

/-- R16, R19: no step writes the presence of a slot or a table. -/
def Obligations.NoStepWritesTheConfiguration : Prop :=
  ∀ s t : State, step s = .next t → t.cfg = s.cfg

/-- R13, R14: the address and the bound bit of a slot are written by its own `D_INIT` only, which binds it to the low 7
bits of its operand; nothing unbinds a slot. -/
def Obligations.OnlyDInitWritesAddressAndBound : Prop :=
  ∀ (i : Instr) (s t : State) (k : SlotNo), exec i s = .next t →
    (t.slots[k].addr = s.slots[k].addr ∧ t.slots[k].bound = s.slots[k].bound) ∨
    ∃ b c : Byte, i = .dInit (slotByte k) b c ∧ t.slots[k].addr = b.setWidth 7 ∧ t.slots[k].bound = true

/-- R17, U3: the unspecified address of an unbound slot is never observed: two states that differ in such addresses only
give, for every command, outcomes that differ in such addresses only. -/
def Obligations.UnboundAddressIsNeverObserved : Prop :=
  ∀ (i : Instr) (s t : State), Agree s t → OutcomesAgree (exec i s) (exec i t)

/-- R24: a command addressed to one slot neither reads nor writes the state of another: whatever state slot `j` is given,
the command does the same and slot `j` keeps it. -/
def Obligations.ACommandTouchesNoOtherSlot : Prop :=
  ∀ (i : Instr) (n : Nat) (j : SlotNo) (sl : Slot) (s : State), i.addressed = some n → j.val ≠ n →
    exec i (withSlot j sl s) = onState (withSlot j sl) (exec i s)

/-- R48, R174: a command that reaches no slot's transport, and is no `D_INIT`, emits nothing and consumes no answer. -/
def Obligations.OnlyTransportCommandsEmit : Prop :=
  ∀ (i : Instr) (s t : State), (∀ k, ¬ Reaches i s k) → (∀ a b c, i ≠ .dInit a b c) → exec i s = .next t →
    t.trace = s.trace ∧ t.answers = s.answers ∧ t.draws = s.draws

/-- R182: a completed command appends to the trace, and the counts of its write transactions, bytes and reads are those of
the table, per live or visited slot. -/
def Obligations.TransportCostsAreTheTable : Prop :=
  ∀ (i : Instr) (s t : State), exec i s = .next t →
    ∃ evs, t.trace = s.trace ++ evs ∧
      (evs.countP isOpen, evs.countP isByte, evs.countP isRead) = transportCost i s

/-! ### The chips as the trace shows them (`10_state.md` R22; log 23) -/

/-- R50: after a flush the display memory of the chip at that address is the buffer; its settings are as they were. -/
def Obligations.FlushMakesTheChipShowTheBuffer : Prop :=
  ∀ (s : State) (k : SlotNo), s.cfg.present[k] = true → s.slots[k].bound = true → TraceFramed s →
    ∃ t, exec (.dFlush (slotByte k)) s = .next t ∧
      chipView s.slots[k].addr t.trace =
        { chipView s.slots[k].addr s.trace with display := some (flushBytes s.slots[k].disp).tail } ∧
      ∀ a, a ≠ s.slots[k].addr → chipView a t.trace = chipView a s.trace

/-- R50, R174: nothing but a flush transfers LED state: any other command leaves every chip's display memory as it was. -/
def Obligations.ChipDisplayChangesOnlyAtAFlush : Prop :=
  ∀ (i : Instr) (s t : State), ¬ Flushes i → TraceFramed s → exec i s = .next t →
    ∀ a, (chipView a t.trace).display = (chipView a s.trace).display

/-- R81, R172 (rate names D14): after `D_INIT` the chip's oscillator and interrupt output are enabled, blinking is off, the
brightness is the clamped operand, and its display memory is as it was. -/
def Obligations.DInitSetsUpTheChip : Prop :=
  ∀ (s : State) (k : SlotNo) (addr brightness : Byte), s.cfg.present[k] = true → TraceFramed s →
    ∃ t, exec (.dInit (slotByte k) addr brightness) s = .next t ∧
      chipView (addr.setWidth 7) t.trace =
        { oscillator := some true, blink := some 0,
          brightness := some (BitVec.ofNat 4 (min brightness.toNat 15)), interruptOut := some true,
          display := (chipView (addr.setWidth 7) s.trace).display }

/-! ### Safe runs -/

/-- R156, R157, R172: once every present slot has had its `D_INIT`, a host list of defined commands runs for ever without
a fault or a refusal. (That the transport always completes is the spec's assumption D22, log 7.) -/
def Obligations.BootedRunsNeverStop : Prop :=
  ∀ s : State, s.cfg.wellFormed = true → Booted s → Defined s.pending → SafeFrom s

/-- R156, R157, R172, as the lemma of one step: with every present slot bound and nothing but defined commands pending, the
step answers a next state in which the same holds. (The transport always completes by D22, log 7; with nothing pending the
unit waits, log 2.) -/
def Obligations.BootedStepsCompleteAndStayBooted : Prop :=
  ∀ s : State, s.cfg.wellFormed = true → Booted s → Defined s.pending →
    ∃ t, step s = .next t ∧ t.cfg.wellFormed = true ∧ Booted t ∧ Defined t.pending
end

