-- ==== Sys2Proof/Laws/State.lean ====
section
/-! SUPPORT. What each named update of the state does to each field, and what the reset state holds. -/

namespace Sys2Proof.Machine

variable (s : State)

@[simp] theorem State.setSlot_cfg (k : SlotNo) (sl : Slot) : (s.setSlot k sl).cfg = s.cfg := rfl
@[simp] theorem State.setSlot_slots (k : SlotNo) (sl : Slot) : (s.setSlot k sl).slots = s.slots.set k sl := rfl
@[simp] theorem State.setSlot_trace (k : SlotNo) (sl : Slot) : (s.setSlot k sl).trace = s.trace := rfl
@[simp] theorem State.setSlot_responses (k : SlotNo) (sl : Slot) : (s.setSlot k sl).responses = s.responses := rfl
@[simp] theorem State.setSlot_pending (k : SlotNo) (sl : Slot) : (s.setSlot k sl).pending = s.pending := rfl
@[simp] theorem State.setSlot_pos (k : SlotNo) (sl : Slot) : (s.setSlot k sl).pos = s.pos := rfl
@[simp] theorem State.setSlot_answers (k : SlotNo) (sl : Slot) : (s.setSlot k sl).answers = s.answers := rfl
@[simp] theorem State.setSlot_draws (k : SlotNo) (sl : Slot) : (s.setSlot k sl).draws = s.draws := rfl

@[simp] theorem State.emit_cfg (evs : List Event) : (s.emit evs).cfg = s.cfg := rfl
@[simp] theorem State.emit_slots (evs : List Event) : (s.emit evs).slots = s.slots := rfl
@[simp] theorem State.emit_trace (evs : List Event) : (s.emit evs).trace = s.trace ++ evs := rfl
@[simp] theorem State.emit_responses (evs : List Event) : (s.emit evs).responses = s.responses := rfl
@[simp] theorem State.emit_pending (evs : List Event) : (s.emit evs).pending = s.pending := rfl
@[simp] theorem State.emit_pos (evs : List Event) : (s.emit evs).pos = s.pos := rfl
@[simp] theorem State.emit_answers (evs : List Event) : (s.emit evs).answers = s.answers := rfl
@[simp] theorem State.emit_draws (evs : List Event) : (s.emit evs).draws = s.draws := rfl

@[simp] theorem State.respond_cfg (r : Resp) : (s.respond r).cfg = s.cfg := rfl
@[simp] theorem State.respond_slots (r : Resp) : (s.respond r).slots = s.slots := rfl
@[simp] theorem State.respond_trace (r : Resp) : (s.respond r).trace = s.trace := rfl
@[simp] theorem State.respond_responses (r : Resp) : (s.respond r).responses = s.responses ++ [r] := rfl
@[simp] theorem State.respond_pending (r : Resp) : (s.respond r).pending = s.pending := rfl
@[simp] theorem State.respond_pos (r : Resp) : (s.respond r).pos = s.pos := rfl
@[simp] theorem State.respond_answers (r : Resp) : (s.respond r).answers = s.answers := rfl
@[simp] theorem State.respond_draws (r : Resp) : (s.respond r).draws = s.draws := rfl

@[simp] theorem State.updateWord_cfg (k : SlotNo) (w : Nat) (f : DispWord → DispWord) : (s.updateWord k w f).cfg = s.cfg := rfl
@[simp] theorem State.updateWord_slots (k : SlotNo) (w : Nat) (f : DispWord → DispWord) : (s.updateWord k w f).slots = s.slots.set k { s.slots[k] with
      disp := s.slots[k].disp.setIfInBounds w (f (s.slots[k].disp[w]?.getD 0)) } := rfl
@[simp] theorem State.updateWord_trace (k : SlotNo) (w : Nat) (f : DispWord → DispWord) : (s.updateWord k w f).trace = s.trace := rfl
@[simp] theorem State.updateWord_responses (k : SlotNo) (w : Nat) (f : DispWord → DispWord) : (s.updateWord k w f).responses = s.responses := rfl
@[simp] theorem State.updateWord_pending (k : SlotNo) (w : Nat) (f : DispWord → DispWord) : (s.updateWord k w f).pending = s.pending := rfl
@[simp] theorem State.updateWord_pos (k : SlotNo) (w : Nat) (f : DispWord → DispWord) : (s.updateWord k w f).pos = s.pos := rfl
@[simp] theorem State.updateWord_answers (k : SlotNo) (w : Nat) (f : DispWord → DispWord) : (s.updateWord k w f).answers = s.answers := rfl
@[simp] theorem State.updateWord_draws (k : SlotNo) (w : Nat) (f : DispWord → DispWord) : (s.updateWord k w f).draws = s.draws := rfl

@[simp] theorem State.rotateKeys_cfg (k : SlotNo) : (s.rotateKeys k).cfg = s.cfg := rfl
@[simp] theorem State.rotateKeys_slots (k : SlotNo) : (s.rotateKeys k).slots = s.slots.set k { s.slots[k] with keyPrev := s.slots[k].keyCur } := rfl
@[simp] theorem State.rotateKeys_trace (k : SlotNo) : (s.rotateKeys k).trace = s.trace := rfl
@[simp] theorem State.rotateKeys_responses (k : SlotNo) : (s.rotateKeys k).responses = s.responses := rfl
@[simp] theorem State.rotateKeys_pending (k : SlotNo) : (s.rotateKeys k).pending = s.pending := rfl
@[simp] theorem State.rotateKeys_pos (k : SlotNo) : (s.rotateKeys k).pos = s.pos := rfl
@[simp] theorem State.rotateKeys_answers (k : SlotNo) : (s.rotateKeys k).answers = s.answers := rfl
@[simp] theorem State.rotateKeys_draws (k : SlotNo) : (s.rotateKeys k).draws = s.draws := rfl

@[simp] theorem State.storeKeys_cfg (k : SlotNo) (r : KeyBytes) : (s.storeKeys k r).cfg = s.cfg := rfl
@[simp] theorem State.storeKeys_slots (k : SlotNo) (r : KeyBytes) : (s.storeKeys k r).slots = s.slots.set k { s.slots[k] with keyCur := r } := rfl
@[simp] theorem State.storeKeys_trace (k : SlotNo) (r : KeyBytes) : (s.storeKeys k r).trace = s.trace := rfl
@[simp] theorem State.storeKeys_responses (k : SlotNo) (r : KeyBytes) : (s.storeKeys k r).responses = s.responses := rfl
@[simp] theorem State.storeKeys_pending (k : SlotNo) (r : KeyBytes) : (s.storeKeys k r).pending = s.pending := rfl
@[simp] theorem State.storeKeys_pos (k : SlotNo) (r : KeyBytes) : (s.storeKeys k r).pos = s.pos := rfl
@[simp] theorem State.storeKeys_answers (k : SlotNo) (r : KeyBytes) : (s.storeKeys k r).answers = s.answers := rfl
@[simp] theorem State.storeKeys_draws (k : SlotNo) (r : KeyBytes) : (s.storeKeys k r).draws = s.draws := rfl

@[simp] theorem State.advance_cfg : (s.advance).cfg = s.cfg := rfl
@[simp] theorem State.advance_slots : (s.advance).slots = s.slots := rfl
@[simp] theorem State.advance_trace : (s.advance).trace = s.trace := rfl
@[simp] theorem State.advance_responses : (s.advance).responses = s.responses := rfl
@[simp] theorem State.advance_pending : (s.advance).pending = s.pending.tail := rfl
@[simp] theorem State.advance_pos : (s.advance).pos = s.pos + 1 := rfl
@[simp] theorem State.advance_answers : (s.advance).answers = s.answers := rfl
@[simp] theorem State.advance_draws : (s.advance).draws = s.draws := rfl

@[simp] theorem State.offer_cfg (w : Word) : (s.offer w).cfg = s.cfg := rfl
@[simp] theorem State.offer_slots (w : Word) : (s.offer w).slots = s.slots := rfl
@[simp] theorem State.offer_trace (w : Word) : (s.offer w).trace = s.trace := rfl
@[simp] theorem State.offer_responses (w : Word) : (s.offer w).responses = s.responses := rfl
@[simp] theorem State.offer_pending (w : Word) : (s.offer w).pending = .command w :: s.pending := rfl
@[simp] theorem State.offer_pos (w : Word) : (s.offer w).pos = s.pos := rfl
@[simp] theorem State.offer_answers (w : Word) : (s.offer w).answers = s.answers := rfl
@[simp] theorem State.offer_draws (w : Word) : (s.offer w).draws = s.draws := rfl

@[simp] theorem State.initial_cfg (cfg : Config) : (State.initial cfg).cfg = cfg := rfl
@[simp] theorem State.initial_slots (cfg : Config) : (State.initial cfg).slots = #v[Slot.reset, Slot.reset, Slot.reset, Slot.reset] := rfl
@[simp] theorem State.initial_trace (cfg : Config) : (State.initial cfg).trace = [] := rfl
@[simp] theorem State.initial_responses (cfg : Config) : (State.initial cfg).responses = [] := rfl
@[simp] theorem State.initial_pending (cfg : Config) : (State.initial cfg).pending = [] := rfl
@[simp] theorem State.initial_pos (cfg : Config) : (State.initial cfg).pos = 0 := rfl
@[simp] theorem State.initial_answers (cfg : Config) : (State.initial cfg).answers = [] := rfl
@[simp] theorem State.initial_draws (cfg : Config) : (State.initial cfg).draws = 0 := rfl

@[simp] theorem State.present_setSlot (k j : SlotNo) (sl : Slot) : (s.setSlot k sl).present j = s.present j := rfl
@[simp] theorem State.present_emit (evs : List Event) (j : SlotNo) : (s.emit evs).present j = s.present j := rfl
@[simp] theorem State.present_respond (r : Resp) (j : SlotNo) : (s.respond r).present j = s.present j := rfl

/-- Every slot of the reset state is a reset slot (R17). -/
theorem State.initial_slot (cfg : Config) (k : SlotNo) : (State.initial cfg).slots[k] = Slot.reset := by
  match k with
  | 0 => rfl
  | 1 => rfl
  | 2 => rfl
  | 3 => rfl

/-- The slot written holds what was written. -/
theorem State.setSlot_same (k : SlotNo) (sl : Slot) : (s.setSlot k sl).slots[k] = sl := by simp

/-- Every other slot is left alone. -/
theorem State.setSlot_other {j k : SlotNo} (sl : Slot) (h : j ≠ k) : (s.setSlot k sl).slots[j] = s.slots[j] := by
  have hv : (k : Nat) ≠ j := fun e => h (Fin.ext e.symm)
  simp [hv]

end Sys2Proof.Machine
end

