-- ==== Sys2Proof/Laws/Ops.lean ====
section
/-! SUPPORT. For each shared operation, one lemma that says all it can do: the range checks of the operands, the transport
primitives, the per-slot parts of the commands, and the delegation schemes. -/

namespace Sys2Proof.Machine

/-! ### Operands -/

theorem slotOperand_eq_some {a : Byte} {k : SlotNo} : slotOperand a = some k ↔ a.toNat = k.val := by
  unfold slotOperand
  split
  · simp [Fin.ext_iff]
  · have := k.isLt; simp; omega

theorem slotOperand_eq_none {a : Byte} : slotOperand a = none ↔ 3 < a.toNat := by
  unfold slotOperand; split <;> simp <;> omega

theorem localOperand_eq_some {b : Byte} {i : LocalIdx} : localOperand b = some i ↔ b.toNat = i.val := by
  unfold localOperand
  split
  · simp [Fin.ext_iff]
  · have := i.isLt; simp; omega

theorem localOperand_eq_none {b : Byte} : localOperand b = none ↔ 15 < b.toNat := by
  unfold localOperand; split <;> simp <;> omega

theorem flatOperand_eq_some {b : Byte} {k : FlatIdx} : flatOperand b = some k ↔ b.toNat = k.val := by
  unfold flatOperand
  split
  · simp [Fin.ext_iff]
  · have := k.isLt; simp; omega

theorem flatOperand_eq_none {b : Byte} : flatOperand b = none ↔ 63 < b.toNat := by
  unfold flatOperand; split <;> simp <;> omega

theorem coordOperand_eq_some {b : Byte} {x : Coord} : coordOperand b = some x ↔ b.toNat = x.val := by
  unfold coordOperand
  split
  · simp [Fin.ext_iff]
  · have := x.isLt; simp; omega

theorem coordOperand_eq_none {b : Byte} : coordOperand b = none ↔ 7 < b.toNat := by
  unfold coordOperand; split <;> simp <;> omega

theorem entryHigh_eq (e : Byte) : entryHigh e = e.toNat / 16 := by
  have := e.isLt
  simp [entryHigh, BitVec.extractLsb'_toNat, Nat.shiftRight_eq_div_pow]; omega

theorem entryLow_eq (e : Byte) : entryLow e = e.toNat % 16 := by
  simp [entryLow, BitVec.extractLsb'_toNat]

theorem entryLow_lt (e : Byte) : entryLow e < 16 := by rw [entryLow_eq]; omega

/-- A live slot is one in range and present (R7). -/
theorem liveSlot_eq_some {s : State} {a : Byte} {k : SlotNo} :
    liveSlot s a = some k ↔ a.toNat = k.val ∧ s.present k = true := by
  unfold liveSlot
  cases h : slotOperand a with
  | none =>
    have := slotOperand_eq_none.1 h
    have := k.isLt
    simp; omega
  | some j =>
    have hj := slotOperand_eq_some.1 h
    constructor
    · intro hk
      by_cases hp : s.present j = true
      · simp only [hp, if_true, Option.some.injEq] at hk; subst hk; exact ⟨hj, hp⟩
      · simp [hp] at hk
    · rintro ⟨ha, hp⟩
      have : j = k := Fin.ext (by omega)
      subst this; simp [hp]

/-- No live slot: out of range, or absent (R66). -/
theorem liveSlot_eq_none {s : State} {a : Byte} :
    liveSlot s a = none ↔ ∀ k : SlotNo, a.toNat = k.val → s.present k = false := by
  constructor
  · intro h k hk
    by_contra hp
    have := (liveSlot_eq_some (s := s)).2 ⟨hk, by simpa using hp⟩
    simp [h] at this
  · intro h
    cases hl : liveSlot s a with
    | none => rfl
    | some k =>
      obtain ⟨ha, hp⟩ := liveSlot_eq_some.1 hl
      simp [h k ha] at hp

/-! ### Transport -/

theorem chipWrite_of_bound {s : State} {k : SlotNo} (h : s.slots[k].bound = true) (bs : List Byte) :
    chipWrite k bs s = .ok (s.emit (writeEvents s.slots[k].addr bs)) := by
  simp only [chipWrite, h, if_true]

theorem chipWrite_of_unbound {s : State} {k : SlotNo} (h : s.slots[k].bound = false) (bs : List Byte) :
    chipWrite k bs s = .error (.unboundAddress k s) := by
  simp only [chipWrite, h, raiseUnbound, Bool.false_eq_true, if_false]

/-- The state after a read of slot `k` (R47). -/
def State.afterRead (s : State) (k : SlotNo) : State :=
  { s with trace := s.trace ++ [.tr s.slots[k].addr 6 (s.answerAt 0)], answers := s.answers.tail, draws := s.draws + 1 }

theorem chipRead_of_bound {s : State} {k : SlotNo} (h : s.slots[k].bound = true) :
    chipRead k s = .ok (s.answerAt 0, s.afterRead k) := by
  simp only [chipRead, h, if_true, State.afterRead]

/-- The events of chip command bytes, each a transaction of its own (R80). -/
def cmdEvents (a : BusAddr) (vs : List Byte) : List Event := vs.flatMap fun v => writeEvents a [v]

@[simp] theorem cmdEvents_nil (a : BusAddr) : cmdEvents a [] = [] := rfl

theorem cmdEvents_cons (a : BusAddr) (v : Byte) (vs : List Byte) :
    cmdEvents a (v :: vs) = writeEvents a [v] ++ cmdEvents a vs := rfl

theorem State.emit_nil (s : State) : s.emit [] = s := by simp [State.emit]

theorem State.emit_emit (s : State) (e₁ e₂ : List Event) : (s.emit e₁).emit e₂ = s.emit (e₁ ++ e₂) := by
  simp [State.emit]

theorem cmdBytes_of_bound {k : SlotNo} (vs : List Byte) {s : State} (h : s.slots[k].bound = true) :
    cmdBytes k vs s = .ok (s.emit (cmdEvents s.slots[k].addr vs)) := by
  induction vs generalizing s with
  | nil => simp [cmdBytes, State.emit_nil]
  | cons v vs ih =>
    have h' : (s.emit (writeEvents s.slots[k].addr [v])).slots[k].bound = true := h
    simp only [cmdBytes, cmd1, chipWrite_of_bound h, ih h', State.emit_emit, cmdEvents_cons]
    rfl

theorem sendBytes_of_bound {s : State} {k : SlotNo} (vs : List Byte) (h : s.slots[k].bound = true) :
    sendBytes vs k s = .ok (0, s.emit (cmdEvents s.slots[k].addr vs)) := by
  simp only [sendBytes, cmdBytes_of_bound vs h]

theorem sendBytes_of_unbound {s : State} {k : SlotNo} (v : Byte) (vs : List Byte) (h : s.slots[k].bound = false) :
    sendBytes (v :: vs) k s = .error (.unboundAddress k s) := by
  simp only [sendBytes, cmdBytes, cmd1, chipWrite_of_unbound h]

/-! ### The per-slot parts that use the transport -/

/-- The state of slot `k` once its address is bound to `a` (R81). -/
def State.bind (s : State) (k : SlotNo) (a : BusAddr) : State :=
  s.setSlot k { s.slots[k] with addr := a, bound := true }

theorem initSlot_eq (addr brightness : Byte) (k : SlotNo) (s : State) :
    initSlot addr brightness k s =
      .ok (0, (s.bind k (addressOperand addr)).emit (cmdEvents (addressOperand addr) (startupBytes brightness))) := by
  have hb : (s.bind k (addressOperand addr)).slots[k].bound = true := by simp [State.bind]
  have ha : (s.bind k (addressOperand addr)).slots[k].addr = addressOperand addr := by simp [State.bind]
  have := sendBytes_of_bound (startupBytes brightness) hb
  rw [ha] at this
  exact this

theorem brightSlot_of_bound {s : State} {k : SlotNo} (level : Byte) (h : s.slots[k].bound = true) :
    brightSlot level k s = .ok (0, s.emit (writeEvents s.slots[k].addr [brightByte (clampLevel level)])) :=
  sendBytes_of_bound _ h

theorem brightSlot_of_unbound {s : State} {k : SlotNo} (level : Byte) (h : s.slots[k].bound = false) :
    brightSlot level k s = .error (.unboundAddress k s) :=
  sendBytes_of_unbound _ _ h

theorem blinkSlot_of_bound {s : State} {k : SlotNo} (rate : Byte) (h : s.slots[k].bound = true) :
    blinkSlot rate k s = .ok (0, s.emit (writeEvents s.slots[k].addr [blinkByte (selectRate rate)])) :=
  sendBytes_of_bound _ h

theorem blinkSlot_of_unbound {s : State} {k : SlotNo} (rate : Byte) (h : s.slots[k].bound = false) :
    blinkSlot rate k s = .error (.unboundAddress k s) :=
  sendBytes_of_unbound _ _ h

theorem flushSlot_of_bound {s : State} {k : SlotNo} (h : s.slots[k].bound = true) :
    flushSlot k s = .ok (0, s.emit (writeEvents s.slots[k].addr (displayByte :: dataBytes s.slots[k].disp))) := by
  simp only [flushSlot, chipWrite_of_bound h]

theorem flushSlot_of_unbound {s : State} {k : SlotNo} (h : s.slots[k].bound = false) :
    flushSlot k s = .error (.unboundAddress k s) := by
  simp only [flushSlot, chipWrite_of_unbound h]

/-- The state after a scan of slot `k` (R101): the pair rotated, the answer stored, one answer consumed, one write
transaction and one read in the trace. -/
def State.scanned (s : State) (k : SlotNo) : State :=
  { s with
    slots := s.slots.set k { s.slots[k] with keyPrev := s.slots[k].keyCur, keyCur := s.answerAt 0 }
    trace := s.trace ++ [.tb s.slots[k].addr, .tw keyScanByte, .te, .tr s.slots[k].addr 6 (s.answerAt 0)]
    answers := s.answers.tail
    draws := s.draws + 1 }

theorem scanSlot_of_bound {s : State} {k : SlotNo} (h : s.slots[k].bound = true) :
    scanSlot k s = .ok (boolResp (changed (s.answerAt 0) s.slots[k].keyCur), s.scanned k) := by
  have hr : (s.rotateKeys k).slots[k].bound = true := by simpa using h
  have he : ((s.rotateKeys k).emit (writeEvents (s.rotateKeys k).slots[k].addr [keyScanByte])).slots[k].bound = true := hr
  simp only [scanSlot, h, if_true, chipWrite_of_bound hr, chipRead_of_bound he]
  simp [State.storeKeys, State.afterRead, State.setSlot, State.rotateKeys, State.emit, State.scanned, State.answerAt,
    writeEvents]

theorem scanSlot_of_unbound {s : State} {k : SlotNo} (h : s.slots[k].bound = false) :
    scanSlot k s = .error (.unboundAddress k s) := by
  simp only [scanSlot, h, Bool.false_eq_true, if_false, raiseUnbound]

/-- Two vectors are equal when their entries are, by entry number. -/
theorem vector_ext_iff_fin {α : Type} {n : Nat} {v w : Vector α n} : v = w ↔ ∀ i : Fin n, v[i] = w[i] :=
  ⟨fun h _ => h ▸ rfl, fun h => Vector.ext fun i hi => h ⟨i, hi⟩⟩

/-- The comparator says whether the two buffers differ (R101). -/
theorem changed_iff (cur prev : KeyBytes) : changed cur prev = true ↔ cur ≠ prev := by
  rw [← not_iff_not, not_ne_iff, vector_ext_iff_fin]
  simp [changed, Fin.forall_fin_succ, and_assoc]

/-! ### The delegation schemes -/

theorem finish_eq_next {r : SlotResult} {t : State} :
    finish r = .next t ↔ ∃ c u, r = .ok (c, u) ∧ t = u.respond c := by
  cases r with
  | error e => simp [finish]
  | ok p => obtain ⟨c, u⟩ := p; simp [finish, eq_comm]

theorem finish_eq_fault {r : SlotResult} {e : Fault} : finish r = .fault e ↔ r = .error e := by
  cases r with
  | error e' => simp [finish]
  | ok p => simp [finish]

theorem finish_ne_refused (r : SlotResult) (e : Refusal) : finish r ≠ .refused e := by
  cases r <;> simp [finish]

theorem perSlot_of_live {s : State} {a : Byte} {k : SlotNo} (h : liveSlot s a = some k)
    (f : SlotNo → State → SlotResult) : perSlot a f s = finish (f k s) := by
  simp only [perSlot, h]

theorem perSlot_of_dead {s : State} {a : Byte} (h : liveSlot s a = none) (f : SlotNo → State → SlotResult) :
    perSlot a f s = .next (s.respond 0) := by
  simp only [perSlot, h, absorb]

theorem atLocal_of_some {b : Byte} {i : LocalIdx} (h : localOperand b = some i)
    (f : LocalIdx → SlotNo → State → SlotResult) (k : SlotNo) (s : State) : atLocal b f k s = f i k s := by
  simp only [atLocal, h]

theorem atLocal_of_none {b : Byte} (h : localOperand b = none)
    (f : LocalIdx → SlotNo → State → SlotResult) (k : SlotNo) (s : State) : atLocal b f k s = .ok (0, s) := by
  simp only [atLocal, h]

/-- `visit` answers a state: what every visited slot's action relates, in order, the whole relates. -/
theorem visit_rel {P : State → State → Prop} (refl : ∀ s, P s s) (trans : ∀ {a b c}, P a b → P b c → P a c)
    {f : SlotNo → State → SlotResult} (hf : ∀ {k s c t}, s.present k = true → f k s = .ok (c, t) → P s t)
    {S : SlotSet} (ks : List SlotNo) :
    ∀ {any any' : Bool} {s t : State}, visit S f ks any s = .ok (any', t) → P s t := by
  induction ks with
  | nil =>
    intro any any' s t h
    simp only [visit, Except.ok.injEq, Prod.mk.injEq] at h
    exact h.2 ▸ refl s
  | cons k ks ih =>
    intro any any' s t h
    rw [visit] at h
    split at h
    · rename_i hk
      split at h
      · rename_i c u hc
        exact trans (hf (by simp at hk; exact hk.2) hc) (ih h)
      · cases h
    · exact ih h

/-- `visit` with no slot refused: the first fault is some visited slot's own, raised in a state that the earlier slots'
actions led to. -/
theorem visit_error {P : State → State → Prop} (refl : ∀ s, P s s) (trans : ∀ {a b c}, P a b → P b c → P a c)
    {f : SlotNo → State → SlotResult} (hf : ∀ {k s c t}, s.present k = true → f k s = .ok (c, t) → P s t)
    {S : SlotSet} (ks : List SlotNo) :
    ∀ {any : Bool} {s : State} {e : Fault}, visit S f ks any s = .error e →
      ∃ k ∈ ks, S[k] = true ∧ ∃ u, P s u ∧ u.present k = true ∧ f k u = .error e := by
  induction ks with
  | nil => intro any s e h; simp [visit] at h
  | cons k ks ih =>
    intro any s e h
    rw [visit] at h
    split at h
    · rename_i hk
      rw [Bool.and_eq_true] at hk
      split at h
      · rename_i c u hc
        obtain ⟨j, hj, hS, v, hP, hv⟩ := ih h
        exact ⟨j, List.mem_cons_of_mem _ hj, hS, v, trans (hf hk.2 hc) hP, hv⟩
      · rename_i e' he
        cases h
        exact ⟨k, List.mem_cons_self, hk.1, s, refl s, hk.2, he⟩
    · obtain ⟨j, hj, rest⟩ := ih h
      exact ⟨j, List.mem_cons_of_mem _ hj, rest⟩

theorem broadcast_eq_next {f : SlotNo → State → SlotResult} {s t : State} :
    broadcast f s = .next t ↔ ∃ any u, visit SlotSet.all f slotOrder false s = .ok (any, u) ∧ t = u.respond 0 := by
  unfold broadcast absorb
  split <;> rename_i h <;> simp [h, eq_comm]

theorem scanSet_eq_next {S : SlotSet} {f : SlotNo → State → SlotResult} {s t : State} :
    scanSet S f s = .next t ↔ ∃ any u, visit S f slotOrder false s = .ok (any, u) ∧ t = u.respond (boolResp any) := by
  unfold scanSet absorb
  split <;> rename_i h <;> simp [h, eq_comm]

end Sys2Proof.Machine
end

