-- ==== Sys2Proof/Laws/Step.lean ====
section
/-! SUPPORT. What a command, and what a step, can do to the state, said once: every next state is reached by a sequence of
per-slot actions, followed by one response. -/

namespace Sys2Proof.Machine

/-- One per-slot action: what the per-slot part of some command does to the state when it completes. -/
inductive Action : State → State → Prop where
  /-- R81 -/
  | bind (s : State) (k : SlotNo) (addr brightness : Byte) (present : s.present k = true) :
      Action s ((s.bind k (addressOperand addr)).emit (cmdEvents (addressOperand addr) (startupBytes brightness)))
  /-- R82 -/
  | bright (s : State) (k : SlotNo) (level : Byte) (present : s.present k = true) (bound : s.slots[k].bound = true) :
      Action s (s.emit (writeEvents s.slots[k].addr [brightByte (clampLevel level)]))
  /-- R83 -/
  | blink (s : State) (k : SlotNo) (rate : Byte) (present : s.present k = true) (bound : s.slots[k].bound = true) :
      Action s (s.emit (writeEvents s.slots[k].addr [blinkByte (selectRate rate)]))
  /-- R94 -/
  | flush (s : State) (k : SlotNo) (present : s.present k = true) (bound : s.slots[k].bound = true) :
      Action s (s.emit (writeEvents s.slots[k].addr (displayByte :: dataBytes s.slots[k].disp)))
  /-- R92 -/
  | setLed (s : State) (k : SlotNo) (i : LocalIdx) (present : s.present k = true) :
      Action s (s.updateWord k (ledPos s.cfg i).1 (· ||| (1#16 <<< (ledPos s.cfg i).2)))
  /-- R93 -/
  | clrLed (s : State) (k : SlotNo) (i : LocalIdx) (present : s.present k = true) :
      Action s (s.updateWord k (ledPos s.cfg i).1 (· &&& ~~~(1#16 <<< (ledPos s.cfg i).2)))
  /-- R95 -/
  | clear (s : State) (k : SlotNo) (present : s.present k = true) :
      Action s (s.setSlot k { s.slots[k] with disp := #v[0, 0, 0, 0, 0, 0, 0, 0] })
  /-- R101 -/
  | scan (s : State) (k : SlotNo) (present : s.present k = true) (bound : s.slots[k].bound = true) :
      Action s (s.scanned k)

/-- A sequence of per-slot actions. -/
abbrev Actions : State → State → Prop := Relation.ReflTransGen Action

/-- A per-slot operation that, on a present slot, does nothing or one action when it completes. -/
def Acts (f : SlotNo → State → SlotResult) : Prop :=
  ∀ {k : SlotNo} {s t : State} {c : Resp}, s.present k = true → f k s = .ok (c, t) → Actions s t

theorem acts_init (addr brightness : Byte) : Acts (initSlot addr brightness) := by
  intro k s t c hp h
  rw [initSlot_eq] at h
  cases h
  exact .single (.bind s k addr brightness hp)

theorem acts_bright (level : Byte) : Acts (brightSlot level) := by
  intro k s t c hp h
  cases hb : s.slots[k].bound with
  | true => rw [brightSlot_of_bound level hb] at h; cases h; exact .single (.bright s k level hp hb)
  | false => rw [brightSlot_of_unbound level hb] at h; cases h

theorem acts_blink (rate : Byte) : Acts (blinkSlot rate) := by
  intro k s t c hp h
  cases hb : s.slots[k].bound with
  | true => rw [blinkSlot_of_bound rate hb] at h; cases h; exact .single (.blink s k rate hp hb)
  | false => rw [blinkSlot_of_unbound rate hb] at h; cases h

theorem acts_flush : Acts flushSlot := by
  intro k s t c hp h
  cases hb : s.slots[k].bound with
  | true => rw [flushSlot_of_bound hb] at h; cases h; exact .single (.flush s k hp hb)
  | false => rw [flushSlot_of_unbound hb] at h; cases h

theorem acts_scan : Acts scanSlot := by
  intro k s t c hp h
  cases hb : s.slots[k].bound with
  | true => rw [scanSlot_of_bound hb] at h; cases h; exact .single (.scan s k hp hb)
  | false => rw [scanSlot_of_unbound hb] at h; cases h

theorem acts_clear : Acts clearSlot := by
  intro k s t c hp h
  cases h; exact .single (.clear s k hp)

theorem acts_setLed (i : LocalIdx) : Acts (setLedSlot i) := by
  intro k s t c hp h
  cases h; exact .single (.setLed s k i hp)

theorem acts_clrLed (i : LocalIdx) : Acts (clrLedSlot i) := by
  intro k s t c hp h
  cases h; exact .single (.clrLed s k i hp)

/-- A per-slot operation that answers a value and leaves the state alone acts on nothing. -/
theorem acts_query {f : SlotNo → State → SlotResult} (hf : ∀ k s, ∃ c, f k s = .ok (c, s)) : Acts f := by
  intro k s t c _ h
  obtain ⟨d, hd⟩ := hf k s
  rw [hd] at h
  cases h; exact .refl

theorem acts_isLed (i : LocalIdx) : Acts (isLedSlot i) := acts_query fun _ _ => ⟨_, rfl⟩

theorem acts_isPressed (i : LocalIdx) : Acts (isPressedSlot i) := acts_query fun _ _ => ⟨_, rfl⟩

theorem acts_wasPressed (i : LocalIdx) : Acts (wasPressedSlot i) := acts_query fun _ _ => ⟨_, rfl⟩

theorem acts_justPressed (i : LocalIdx) : Acts (justPressedSlot i) := acts_query fun _ _ => ⟨_, rfl⟩

theorem acts_justReleased (i : LocalIdx) : Acts (justReleasedSlot i) := acts_query fun _ _ => ⟨_, rfl⟩

theorem acts_atLocal {f : LocalIdx → SlotNo → State → SlotResult} (hf : ∀ i, Acts (f i)) (b : Byte) :
    Acts (atLocal b f) := by
  intro k s t c hp h
  cases hb : localOperand b with
  | some i => rw [atLocal_of_some hb] at h; exact hf i hp h
  | none => rw [atLocal_of_none hb] at h; cases h; exact .refl

/-! ### The delegation schemes and `exec` -/

/-- What a completed command leaves: actions, then its one response. -/
def Completed (s t : State) : Prop := ∃ u r, Actions s u ∧ t = u.respond r

theorem perSlot_completed {f : SlotNo → State → SlotResult} (hf : Acts f) {a : Byte} {s t : State}
    (h : perSlot a f s = .next t) : Completed s t := by
  cases hl : liveSlot s a with
  | none => rw [perSlot_of_dead hl] at h; cases h; exact ⟨s, 0, .refl, rfl⟩
  | some k =>
    rw [perSlot_of_live hl, finish_eq_next] at h
    obtain ⟨c, u, hu, rfl⟩ := h
    exact ⟨u, c, hf (liveSlot_eq_some.1 hl).2 hu, rfl⟩

theorem route_completed {f : LocalIdx → SlotNo → State → SlotResult} (hf : ∀ i, Acts (f i)) {b : Byte} {s t : State}
    (h : route b f s = .next t) : Completed s t := by
  unfold route at h
  split at h
  · split at h
    · rename_i hp
      rw [finish_eq_next] at h
      obtain ⟨c, u, hu, rfl⟩ := h
      exact ⟨u, c, hf _ hp hu, rfl⟩
    · cases h; exact ⟨s, 0, .refl, rfl⟩
  · cases h; exact ⟨s, 0, .refl, rfl⟩

theorem visit_actions {f : SlotNo → State → SlotResult} (hf : Acts f) {S : SlotSet} {ks : List SlotNo}
    {any any' : Bool} {s t : State} (h : visit S f ks any s = .ok (any', t)) : Actions s t :=
  visit_rel (fun _ => .refl) .trans hf ks h

theorem broadcast_completed {f : SlotNo → State → SlotResult} (hf : Acts f) {s t : State}
    (h : broadcast f s = .next t) : Completed s t := by
  obtain ⟨any, u, hu, rfl⟩ := broadcast_eq_next.1 h
  exact ⟨u, 0, visit_actions hf hu, rfl⟩

theorem scanSet_completed {S : SlotSet} {f : SlotNo → State → SlotResult} (hf : Acts f) {s t : State}
    (h : scanSet S f s = .next t) : Completed s t := by
  obtain ⟨any, u, hu, rfl⟩ := scanSet_eq_next.1 h
  exact ⟨u, _, visit_actions hf hu, rfl⟩

/-- What a command can do when it answers a next state. -/
theorem exec_completed {i : Instr} {s t : State} (h : exec i s = .next t) : Completed s t := by
  cases i with
  | dInit a b c => exact perSlot_completed (acts_init b c) h
  | dBright a b => exact perSlot_completed (acts_bright b) h
  | dBlink a b => exact perSlot_completed (acts_blink b) h
  | dFlush a => exact perSlot_completed acts_flush h
  | dClear a => exact perSlot_completed acts_clear h
  | dScan a => exact perSlot_completed acts_scan h
  | dIsLed a b => exact perSlot_completed (acts_atLocal acts_isLed b) h
  | dSetLed a b => exact perSlot_completed (acts_atLocal acts_setLed b) h
  | dClrLed a b => exact perSlot_completed (acts_atLocal acts_clrLed b) h
  | dIsPressed a b => exact perSlot_completed (acts_atLocal acts_isPressed b) h
  | dWasPressed a b => exact perSlot_completed (acts_atLocal acts_wasPressed b) h
  | dJustPressed a b => exact perSlot_completed (acts_atLocal acts_justPressed b) h
  | dJustReleased a b => exact perSlot_completed (acts_atLocal acts_justReleased b) h
  | gBright b => exact broadcast_completed (acts_bright b) h
  | gBlink b => exact broadcast_completed (acts_blink b) h
  | gFlush => exact broadcast_completed acts_flush h
  | gClear => exact broadcast_completed acts_clear h
  | gScan => exact scanSet_completed acts_scan h
  | gScanP => exact scanSet_completed acts_scan h
  | gScanS => exact scanSet_completed acts_scan h
  | gIsLed b => exact route_completed acts_isLed h
  | gSetLed b => exact route_completed acts_setLed h
  | gClrLed b => exact route_completed acts_clrLed h
  | gIsPressed b => exact route_completed acts_isPressed h
  | gWasPressed b => exact route_completed acts_wasPressed h
  | gJustPressed b => exact route_completed acts_justPressed h
  | gJustReleased b => exact route_completed acts_justReleased h
  | xy2i b c => cases h; exact ⟨s, _, .refl, rfl⟩
  | i2xy b => cases h; exact ⟨s, _, .refl, rfl⟩

/-! ### The step -/

/-- A configuration is well formed when it passes the checks of R36, R37, R39 and R16. -/
theorem wellFormed_iff {c : Config} :
    c.wellFormed = true ↔ c.LedLutOk ∧ c.KeyLutOk ∧ c.CoordTablesOk ∧ c.SomePresent :=
  decide_eq_true_iff

theorem guardConfig_of_wellFormed {s : State} (h : s.cfg.wellFormed = true) (d : Fetched) : guardConfig s d = d :=
  if_pos h

theorem guardConfig_of_illFormed {s : State} (h : s.cfg.wellFormed = false) (d : Fetched) :
    guardConfig s d = .refuse .illFormedTables :=
  if_neg (by simp [h])

/-- An ill-formed configuration is refused, whatever is pending (R157). -/
theorem fetch_of_illFormed {s : State} (h : s.cfg.wellFormed = false) : fetch s = .refuse .illFormedTables := by
  unfold fetch; split <;> exact guardConfig_of_illFormed h _

/-- What the command interface finds under a well-formed configuration. -/
theorem fetch_of_wellFormed {s : State} (h : s.cfg.wellFormed = true) :
    fetch s = match s.pending with
      | [] => .idle
      | .concurrent _ _ :: _ => .refuse .concurrentAccess
      | .command w :: _ => offered w s := by
  unfold fetch; split <;> simp only [guardConfig_of_wellFormed h, *]

theorem offered_of_ok {w : Word} {i : Instr} (h : decode w = .ok i) (s : State) : offered w s = .run i s.advance := by
  simp only [offered, h]

theorem offered_of_error {w : Word} {op : Byte} (h : decode w = .error (.reservedOpcode op)) (s : State) :
    offered w s = .refuse (.reservedOpcode w) := by
  simp only [offered, h]

/-- What a step can do when it answers a next state: wait, or complete the command presented; either way the
configuration is well formed. -/
theorem step_next {s t : State} (h : step s = .next t) :
    s.cfg.wellFormed = true ∧ ((s.pending = [] ∧ t = s) ∨
      ∃ w rest i, s.pending = .command w :: rest ∧ decode w = .ok i ∧ exec i s.advance = .next t) := by
  cases hw : s.cfg.wellFormed with
  | true =>
    refine ⟨rfl, ?_⟩
    unfold step at h
    rw [fetch_of_wellFormed hw] at h
    cases hp : s.pending with
    | nil => rw [hp] at h; exact .inl ⟨rfl, by cases h; rfl⟩
    | cons x rest =>
      rw [hp] at h
      cases x with
      | concurrent w₁ w₂ => cases h
      | command w =>
        cases hd : decode w with
        | ok i => simp only [offered_of_ok hd] at h; exact .inr ⟨w, rest, i, rfl, hd, h⟩
        | error e => cases e; simp only [offered_of_error hd] at h; cases h
  | false =>
    unfold step at h
    rw [fetch_of_illFormed hw] at h
    cases h

end Sys2Proof.Machine
end

