-- ==== Sys2Proof/Laws/Vocabulary.lean ====
section
/-! SUPPORT. The terms of Safety.lean in the terms of the operations: operands by number, dead slots, tested bits, the bytes
of a flush. -/

namespace Sys2Proof.Machine

@[simp] theorem slotByte_toNat (k : SlotNo) : (slotByte k).toNat = k.val := by
  have := k.isLt
  simp [slotByte, BitVec.toNat_ofNat]; omega

@[simp] theorem localByte_toNat (i : LocalIdx) : (localByte i).toNat = i.val := by
  have := i.isLt
  simp [localByte, BitVec.toNat_ofNat]; omega

@[simp] theorem flatByte_toNat (k : FlatIdx) : (flatByte k).toNat = k.val := by
  have := k.isLt
  simp [flatByte, BitVec.toNat_ofNat]; omega

@[simp] theorem coordByte_toNat (x : Coord) : (coordByte x).toNat = x.val := by
  have := x.isLt
  simp [coordByte, BitVec.toNat_ofNat]; omega

@[simp] theorem localOperand_localByte (i : LocalIdx) : localOperand (localByte i) = some i :=
  localOperand_eq_some.2 (localByte_toNat i)

@[simp] theorem flatOperand_flatByte (k : FlatIdx) : flatOperand (flatByte k) = some k :=
  flatOperand_eq_some.2 (flatByte_toNat k)

@[simp] theorem coordOperand_coordByte (x : Coord) : coordOperand (coordByte x) = some x :=
  coordOperand_eq_some.2 (coordByte_toNat x)

/-- An operand is the byte of slot `k` exactly when it is that number. -/
theorem eq_slotByte {a : Byte} {k : SlotNo} : a = slotByte k ↔ a.toNat = k.val := by
  rw [← BitVec.toNat_inj, slotByte_toNat]

theorem slotByte_inj {j k : SlotNo} : slotByte j = slotByte k ↔ j = k := by
  rw [eq_slotByte, slotByte_toNat, Fin.ext_iff]

theorem liveSlot_slotByte {s : State} {k : SlotNo} (h : s.cfg.present[k] = true) : liveSlot s (slotByte k) = some k :=
  liveSlot_eq_some.2 ⟨slotByte_toNat k, h⟩

/-- A dead slot operand is one that names no live slot. -/
theorem deadSlot_iff {s : State} {a : Byte} : DeadSlot s a ↔ liveSlot s a = none :=
  liveSlot_eq_none.symm

/-- An operand either is dead or names a live slot. -/
theorem dead_or_live (s : State) (a : Byte) : DeadSlot s a ∨ ∃ k : SlotNo, a = slotByte k ∧ s.cfg.present[k] = true := by
  cases h : liveSlot s a with
  | none => exact .inl (deadSlot_iff.2 h)
  | some k =>
    obtain ⟨ha, hp⟩ := liveSlot_eq_some.1 h
    exact .inr ⟨k, eq_slotByte.2 ha, hp⟩

@[simp] theorem truth_eq (c : Bool) : truth c = boolResp c := rfl

theorem ledBit_eq (cfg : Config) (d : DispBuf) (i : LocalIdx) : ledBit cfg d i = testDisp d (ledPos cfg i) := by
  simp only [ledBit, testDisp, ledPos, entryHigh_eq, entryLow_eq]

theorem keyBit_eq (cfg : Config) (r : KeyBytes) (i : LocalIdx) : keyBit cfg r i = testKey r (keyPos cfg i) := by
  simp only [keyBit, testKey, keyPos, entryHigh_eq, entryLow_eq]

/-- A display buffer is its eight words. -/
theorem dispBuf_eta (d : DispBuf) : d = #v[d[0], d[1], d[2], d[3], d[4], d[5], d[6], d[7]] :=
  vector_ext_iff_fin.2 fun i => by fin_cases i <;> rfl

/-- The 17 bytes of a flush are the register byte and the data bytes (R94). -/
theorem flushBytes_eq (d : DispBuf) : flushBytes d = displayByte :: dataBytes d := by
  rw [dispBuf_eta d]; rfl

theorem dataBytes_length (d : DispBuf) : (dataBytes d).length = 16 := by
  rw [dispBuf_eta d]; rfl

theorem transaction_eq (s : State) (k : SlotNo) (bs : List Byte) :
    transaction s k bs = writeEvents s.slots[k].addr bs := rfl

end Sys2Proof.Machine
end

