-- ==== Sys2Proof/Laws/Chip.lean ====
section
/-! SUPPORT. How the trace reads as transactions, piece by piece, and what that does to the view of a chip. -/

namespace Sys2Proof.Machine

theorem frame_append (tr evs : List Event) : frame (tr ++ evs) = evs.foldl Framing.read (frame tr) :=
  List.foldl_append

theorem read_bytes {f : Framing} {a : BusAddr} {bs : List Byte} (h : f.opened = some (a, bs)) (vs : List Byte) :
    (vs.map Event.tw).foldl Framing.read f = { f with opened := some (a, bs ++ vs) } := by
  induction vs generalizing f bs with
  | nil => cases f; simp_all
  | cons v vs ih =>
    have : f.read (.tw v) = { f with opened := some (a, bs ++ [v]) } := by simp [Framing.read, h]
    rw [List.map_cons, List.foldl_cons, this, ih (bs := bs ++ [v]) rfl]
    simp

/-- A write transaction, read where none is open. -/
theorem read_write {f : Framing} (h : f.opened = none) (a : BusAddr) (bs : List Byte) :
    (writeEvents a bs).foldl Framing.read f = { f with done := f.done ++ [.write a bs] } := by
  have h0 : f.read (.tb a) = { f with opened := some (a, []) } := by simp [Framing.read, h]
  rw [writeEvents, List.foldl_cons, h0, List.foldl_append, read_bytes (bs := []) rfl]
  cases f
  simp_all [Framing.read]

/-- Chip command bytes, read where no transaction is open. -/
theorem read_cmdEvents {f : Framing} (h : f.opened = none) (a : BusAddr) (vs : List Byte) :
    (cmdEvents a vs).foldl Framing.read f = { f with done := f.done ++ vs.map fun v => .write a [v] } := by
  induction vs generalizing f with
  | nil => simp
  | cons v vs ih =>
    rw [cmdEvents_cons, List.foldl_append, read_write h]
    rw [ih (f := { f with done := f.done ++ [.write a [v]] }) h]
    simp

/-- The events of a scan, read where no transaction is open. -/
theorem read_scan {f : Framing} (h : f.opened = none) (a : BusAddr) (r : KeyBytes) :
    ([.tb a, .tw keyScanByte, .te, .tr a 6 r] : List Event).foldl Framing.read f =
      { f with done := f.done ++ [.write a [keyScanByte], .read a 6 r] } := by
  simp [Framing.read, h]

/-- Events that read as the completed transactions `ts` wherever none is open. -/
def ReadsAs (evs : List Event) (ts : List Transaction) : Prop :=
  ∀ f : Framing, f.opened = none → evs.foldl Framing.read f = { f with done := f.done ++ ts }

theorem readsAs_nil : ReadsAs [] [] := fun f _ => by simp

theorem ReadsAs.append {e₁ e₂ : List Event} {t₁ t₂ : List Transaction} (h₁ : ReadsAs e₁ t₁) (h₂ : ReadsAs e₂ t₂) :
    ReadsAs (e₁ ++ e₂) (t₁ ++ t₂) := by
  intro f hf
  rw [List.foldl_append, h₁ f hf, h₂ { f with done := f.done ++ t₁ } hf]
  simp

theorem readsAs_write (a : BusAddr) (bs : List Byte) : ReadsAs (writeEvents a bs) [.write a bs] :=
  fun _ hf => read_write hf a bs

theorem readsAs_cmd (a : BusAddr) (vs : List Byte) : ReadsAs (cmdEvents a vs) (vs.map fun v => .write a [v]) :=
  fun _ hf => read_cmdEvents hf a vs

theorem readsAs_scan (a : BusAddr) (r : KeyBytes) :
    ReadsAs [.tb a, .tw keyScanByte, .te, .tr a 6 r] [.write a [keyScanByte], .read a 6 r] :=
  fun _ hf => read_scan hf a r

/-- The view of a chip after more of the trace. -/
theorem chipView_append {tr evs : List Event} {ts : List Transaction} (h : (frame tr).opened = none)
    (hr : ReadsAs evs ts) (a : BusAddr) :
    chipView a (tr ++ evs) = ts.foldl (ChipView.apply a) (chipView a tr) := by
  rw [chipView, frame_append, hr _ h, List.foldl_append]; rfl

end Sys2Proof.Machine
end

