-- ==== Sys2Proof/Laws/PerInstr.lean ====
section
/-! SUPPORT. The fields of an encoded word, and, per command, that its word carries the table's opcode and only the bits
the table gives it. -/

namespace Sys2Proof

/-- Every bit of an encoded word (R60). -/
theorem command_getLsbD (op a b c : Byte) (i : Nat) :
    (command op a b c).getLsbD i =
      if i < 8 then c.getLsbD i
      else if i < 16 then b.getLsbD (i - 8)
      else if i < 24 then a.getLsbD (i - 16)
      else op.getLsbD (i - 24) := by
  have h₃ := BitVec.getLsbD_append (x := op ++ a ++ b) (y := c) (i := i)
  have h₂ := BitVec.getLsbD_append (x := op ++ a) (y := b) (i := i - 8)
  have h₁ := BitVec.getLsbD_append (x := op) (y := a) (i := i - 8 - 8)
  have e : i - 8 - 8 = i - 16 := by omega
  have e' : i - 8 - 8 - 8 = i - 24 := by omega
  refine h₃.trans ?_
  rw [h₂, h₁, e', e]
  split_ifs <;> first | rfl | omega

theorem fieldOp_command (op a b c : Byte) : fieldOp (command op a b c) = op := by
  apply BitVec.eq_of_getLsbD_eq
  intro i hi
  rw [fieldOp, BitVec.getLsbD_extractLsb', command_getLsbD, if_neg (by omega), if_neg (by omega), if_neg (by omega),
    Nat.add_sub_cancel_left]
  simp [hi]

theorem fieldA_command (op a b c : Byte) : fieldA (command op a b c) = a := by
  apply BitVec.eq_of_getLsbD_eq
  intro i hi
  rw [fieldA, BitVec.getLsbD_extractLsb', command_getLsbD, if_neg (by omega), if_neg (by omega), if_pos (by omega),
    Nat.add_sub_cancel_left]
  simp [hi]

theorem fieldB_command (op a b c : Byte) : fieldB (command op a b c) = b := by
  apply BitVec.eq_of_getLsbD_eq
  intro i hi
  rw [fieldB, BitVec.getLsbD_extractLsb', command_getLsbD, if_neg (by omega), if_pos (by omega),
    Nat.add_sub_cancel_left]
  simp [hi]

theorem fieldC_command (op a b c : Byte) : fieldC (command op a b c) = c := by
  apply BitVec.eq_of_getLsbD_eq
  intro i hi
  rw [fieldC, BitVec.getLsbD_extractLsb', command_getLsbD, if_pos (by omega), Nat.zero_add]
  simp [hi]

end Sys2Proof

namespace Sys2Proof.Laws.OpcodeOfRow

/-- The word of a command carries the opcode of its row in `op` (R63). -/
def Statement (i : Instr) : Prop := fieldOp (encode i) = i.opcode

theorem dInit (a b c : Byte) : Statement (.dInit a b c) := fieldOp_command _ _ _ _
theorem dBright (a b : Byte) : Statement (.dBright a b) := fieldOp_command _ _ _ _
theorem dBlink (a b : Byte) : Statement (.dBlink a b) := fieldOp_command _ _ _ _
theorem dFlush (a : Byte) : Statement (.dFlush a) := fieldOp_command _ _ _ _
theorem dClear (a : Byte) : Statement (.dClear a) := fieldOp_command _ _ _ _
theorem dScan (a : Byte) : Statement (.dScan a) := fieldOp_command _ _ _ _
theorem dIsLed (a b : Byte) : Statement (.dIsLed a b) := fieldOp_command _ _ _ _
theorem dSetLed (a b : Byte) : Statement (.dSetLed a b) := fieldOp_command _ _ _ _
theorem dClrLed (a b : Byte) : Statement (.dClrLed a b) := fieldOp_command _ _ _ _
theorem dIsPressed (a b : Byte) : Statement (.dIsPressed a b) := fieldOp_command _ _ _ _
theorem dWasPressed (a b : Byte) : Statement (.dWasPressed a b) := fieldOp_command _ _ _ _
theorem dJustPressed (a b : Byte) : Statement (.dJustPressed a b) := fieldOp_command _ _ _ _
theorem dJustReleased (a b : Byte) : Statement (.dJustReleased a b) := fieldOp_command _ _ _ _
theorem gBright (a : Byte) : Statement (.gBright a) := fieldOp_command _ _ _ _
theorem gBlink (a : Byte) : Statement (.gBlink a) := fieldOp_command _ _ _ _
theorem gFlush : Statement .gFlush := fieldOp_command _ _ _ _
theorem gClear : Statement .gClear := fieldOp_command _ _ _ _
theorem gScan : Statement .gScan := fieldOp_command _ _ _ _
theorem gScanP : Statement .gScanP := fieldOp_command _ _ _ _
theorem gScanS : Statement .gScanS := fieldOp_command _ _ _ _
theorem gIsLed (a : Byte) : Statement (.gIsLed a) := fieldOp_command _ _ _ _
theorem gSetLed (a : Byte) : Statement (.gSetLed a) := fieldOp_command _ _ _ _
theorem gClrLed (a : Byte) : Statement (.gClrLed a) := fieldOp_command _ _ _ _
theorem gIsPressed (a : Byte) : Statement (.gIsPressed a) := fieldOp_command _ _ _ _
theorem gWasPressed (a : Byte) : Statement (.gWasPressed a) := fieldOp_command _ _ _ _
theorem gJustPressed (a : Byte) : Statement (.gJustPressed a) := fieldOp_command _ _ _ _
theorem gJustReleased (a : Byte) : Statement (.gJustReleased a) := fieldOp_command _ _ _ _
theorem xy2i (a b : Byte) : Statement (.xy2i a b) := fieldOp_command _ _ _ _
theorem i2xy (a : Byte) : Statement (.i2xy a) := fieldOp_command _ _ _ _

end Sys2Proof.Laws.OpcodeOfRow
end

