-- ==== Sys2Proof/Tests/Slice0.lean ====
section
/-! SUPPORT. Tests. Expected values are the spec's own: the vectors V30 to V44, E1 to E7 and P1 to P6 of `95_test_vectors.md`
and `96_test_programs.md`, or counted by hand from the tables of `30_encoding.md` and `20_memory.md`. -/

namespace Sys2Proof.Tests

open Sys2Proof Sys2Proof.Machine

/-! ### Small states -/

/-- A slot bound to a bus address, otherwise as reset left it. -/
def boundSlot (a : BusAddr) : Slot := { Slot.reset with addr := a, bound := true }

/-- Reset, tables T0. -/
def unit (present : SlotSet) : State := State.initial (Config.t0 present)

/-- Reset, then every present slot bound to 0x70 plus its number. -/
def booted (present : SlotSet) : State :=
  { unit present with
    slots := Vector.ofFn fun k => if present[k] then boundSlot (0x70#7 + BitVec.ofNat 7 k.val) else Slot.reset }

/-- Slot 0 alone is present. -/
def only0 : SlotSet := #v[true, false, false, false]

/-- Slots 0, 1 and 3 are present (P3). -/
def no2 : SlotSet := #v[true, true, false, true]

/-- Slots 0 and 1 are present. -/
def first2 : SlotSet := #v[true, true, false, false]

/-- Slot `k` with the given display buffer. -/
def withDisp (k : SlotNo) (d : DispBuf) (s : State) : State := s.setSlot k { s.slots[k] with disp := d }

/-- Slot `k` with the given key buffers, current and previous. -/
def withKeys (k : SlotNo) (cur prev : KeyBytes) (s : State) : State :=
  s.setSlot k { s.slots[k] with keyCur := cur, keyPrev := prev }

/-- The given transport answers still to come. -/
def withAnswers (l : List KeyBytes) (s : State) : State := { s with answers := l }

/-- Slots 0 and 1 present, slot 0 alone bound (V43.23). -/
def half : State := { unit first2 with slots := #v[boundSlot 0x70, Slot.reset, Slot.reset, Slot.reset] }

/-- What the command of word `w` does: its response, the events it adds, the slots it leaves; nothing if it stops. -/
def ran (w : Word) (s : State) : Option (List Resp × List Event × Vector Slot 4) :=
  match decode w with
  | .ok i =>
    match exec i s with
    | .next t => some (t.responses.drop s.responses.length, t.trace.drop s.trace.length, t.slots)
    | .fault _ => none
    | .refused _ => none
  | .error _ => none

/-- The fault of the command of word `w`: the slot it names and the state it leaves. -/
def faulted (w : Word) (s : State) : Option (SlotNo × List Event × Vector Slot 4) :=
  match decode w with
  | .ok i =>
    match exec i s with
    | .next _ => none
    | .fault (.unboundAddress k t) => some (k, t.trace.drop s.trace.length, t.slots)
    | .refused _ => none
  | .error _ => none

/-- The reason the step refuses. -/
def refusal (s : State) : Option Refusal :=
  match step s with
  | .next _ => none
  | .fault _ => none
  | .refused r => some r

/-- The state after the step. -/
def stepped (s : State) : Option State :=
  match step s with
  | .next t => some t
  | .fault _ => none
  | .refused _ => none

/-- One transaction that sends the byte `v`. -/
def one (a : BusAddr) (v : Byte) : List Event := [.tb a, .tw v, .te]

/-- The transaction of a flush with the given data bytes. -/
def flushed (a : BusAddr) (data : List Byte) : List Event := .tb a :: .tw 0x00 :: (data.map .tw ++ [.te])

/-- The events of one scan. -/
def scanned (a : BusAddr) (r : KeyBytes) : List Event := [.tb a, .tw 0x40, .te, .tr a 6 r]

/-- The eight data bytes that are 0. -/
def zero8 : List Byte := [0, 0, 0, 0, 0, 0, 0, 0]

/-! ### The configuration checks (R36, R37, R39, R16; section 5 of `96_test_programs.md`) -/

theorem test_wf_t0 : (Config.t0 SlotSet.all).wellFormed = true := by decide
theorem test_wf_ref : (Config.ref only0).wellFormed = true := by decide

/-- T0 with entry 0 of the LED table replaced. -/
def ledEntry (e : Byte) : Config := { Config.t0 SlotSet.all with ledLut := Config.ledLutT0.set 0 e }

/-- T0 with entry 0 of the key table replaced. -/
def keyEntry (e : Byte) : Config := { Config.t0 SlotSet.all with keyLut := Config.keyLutT0.set 0 e }

/-- T0 with entries 0 and 1 of `I2XY` exchanged. -/
def swapped : Config := { Config.t0 SlotSet.all with i2xy := (Config.i2xyT0.set 0 (1, 0)).set 1 (0, 0) }

theorem test_wf_led_word_8 : (ledEntry 0x8F).wellFormed = false := by decide
theorem test_wf_led_word_8_is_the_cause : ¬ (ledEntry 0x8F).LedLutOk ∧ (ledEntry 0x8F).KeyLutOk := by decide
theorem test_wf_led_repeated : ¬ (ledEntry 0x1E).LedLutOk := by decide
theorem test_wf_key_bit_8 : ¬ (keyEntry 0x08).KeyLutOk ∧ (keyEntry 0x08).LedLutOk := by decide
theorem test_wf_key_byte_6 : ¬ (keyEntry 0x60).KeyLutOk := by decide
theorem test_wf_key_repeated : ¬ (keyEntry 0x11).KeyLutOk := by decide
theorem test_wf_coordinates_not_inverse : ¬ swapped.CoordTablesOk ∧ swapped.LedLutOk ∧ swapped.KeyLutOk := by decide
theorem test_wf_no_slot : ¬ (Config.t0 #v[false, false, false, false]).SomePresent := by decide
theorem test_wf_each_check_refuses : (keyEntry 0x08).wellFormed = false ∧ swapped.wellFormed = false ∧
    (Config.t0 #v[false, false, false, false]).wellFormed = false := by decide

/-- E1: the entries of T0 as the spec lists them. -/
theorem test_t0_led_table : Config.ledLutT0 = #v[0x0F, 0x1E, 0x2D, 0x3C, 0x4B, 0x5A, 0x69, 0x78, 0x07, 0x16, 0x25, 0x34,
    0x43, 0x52, 0x61, 0x70] := by decide
theorem test_t0_key_table : Config.keyLutT0 = #v[0x00, 0x11, 0x22, 0x33, 0x44, 0x55, 0x06, 0x17, 0x20, 0x31, 0x42, 0x53,
    0x04, 0x15, 0x26, 0x37] := by decide

/-! ### Decoding: one word per command, as the spec's vectors write it -/

theorem test_decode_dInit : decode 0x1001F1C8 = .ok (.dInit 1 0xF1 200) := by decide
theorem test_decode_dBright : decode 0x11020700 = .ok (.dBright 2 7) := by decide
theorem test_decode_dBlink : decode 0x12008000 = .ok (.dBlink 0 128) := by decide
theorem test_decode_dFlush : decode 0x13010000 = .ok (.dFlush 1) := by decide
theorem test_decode_dClear : decode 0x14010000 = .ok (.dClear 1) := by decide
theorem test_decode_dScan : decode 0x1503FFFF = .ok (.dScan 3) := by decide
theorem test_decode_dIsLed : decode 0x18001300 = .ok (.dIsLed 0 19) := by decide
theorem test_decode_dSetLed : decode 0x19C803FF = .ok (.dSetLed 200 3) := by decide
theorem test_decode_dClrLed : decode 0x1A001300 = .ok (.dClrLed 0 19) := by decide
theorem test_decode_dIsPressed : decode 0x1C001000 = .ok (.dIsPressed 0 16) := by decide
theorem test_decode_dWasPressed : decode 0x1D00FF00 = .ok (.dWasPressed 0 255) := by decide
theorem test_decode_dJustPressed : decode 0x1E010000 = .ok (.dJustPressed 1 0) := by decide
theorem test_decode_dJustReleased : decode 0x1F040000 = .ok (.dJustReleased 4 0) := by decide
theorem test_decode_gBright : decode 0x21001400 = .ok (.gBright 20) := by decide
theorem test_decode_gBlink : decode 0x22000700 = .ok (.gBlink 7) := by decide
theorem test_decode_gFlush : decode 0x23ABCDEF = .ok .gFlush := by decide
theorem test_decode_gClear : decode 0x24000000 = .ok .gClear := by decide
theorem test_decode_gScan : decode 0x25000000 = .ok .gScan := by decide
theorem test_decode_gScanP : decode 0x26000000 = .ok .gScanP := by decide
theorem test_decode_gScanS : decode 0x27000000 = .ok .gScanS := by decide
theorem test_decode_gIsLed : decode 0x28771300 = .ok (.gIsLed 19) := by decide
theorem test_decode_gSetLed : decode 0x29002300 = .ok (.gSetLed 35) := by decide
theorem test_decode_gClrLed : decode 0x2A003F00 = .ok (.gClrLed 63) := by decide
theorem test_decode_gIsPressed : decode 0x2C002300 = .ok (.gIsPressed 35) := by decide
theorem test_decode_gWasPressed : decode 0x2D002300 = .ok (.gWasPressed 35) := by decide
theorem test_decode_gJustPressed : decode 0x2E00FF00 = .ok (.gJustPressed 255) := by decide
theorem test_decode_gJustReleased : decode 0x2F002300 = .ok (.gJustReleased 35) := by decide
theorem test_decode_xy2i : decode 0x30AA0302 = .ok (.xy2i 3 2) := by decide
theorem test_decode_i2xy : decode 0x31FF13FF = .ok (.i2xy 19) := by decide

/-- V30.1 to V30.9. -/
theorem test_decode_reserved : [0x00000000#32, 0x0F123456, 0x16000000, 0x17000000, 0x1B000300, 0x20007015, 0x2B000000,
    0x32000000, 0xFFFFFFFF].map decode = [0x00, 0x0F, 0x16, 0x17, 0x1B, 0x20, 0x2B, 0x32, 0xFF].map
      fun op => .error (.reservedOpcode op) := by decide

/-- Section 3.6: 29 defined opcodes, 227 reserved. -/
theorem test_decode_count : ((List.range 256).filter fun op =>
    match decode (command (BitVec.ofNat 8 op) 0 0 0) with | .ok _ => true | .error _ => false).length = 29 := by decide

theorem test_encode : [encode (.dInit 0 0x70 15), encode (.xy2i 3 2), encode (.gSetLed 19), encode (.dScan 0), encode .gScan] =
    [0x1000700F, 0x30000302, 0x29001300, 0x15000000, 0x25000000] := by decide

/-- R69. -/
theorem test_asm : (Instr.dInit 0 0x70 15).asm = "D_INIT 0, 112, 15" ∧ Instr.gFlush.asm = "G_FLUSH" := by decide

theorem test_table_word : decodeTableWord 32 0x1000700F = some (.dInit 0 0x70 15) ∧ decodeTableWord 32 0x20000000 = none := by
  decide

/-! ### Family 40 (V40) -/

theorem test_dInit : ran 0x1001F1C8 (unit first2) = some ([0],
    one 0x71 0x21 ++ one 0x71 0x81 ++ one 0x71 0xEF ++ one 0x71 0xA1,
    #v[Slot.reset, boundSlot 0x71, Slot.reset, Slot.reset]) := by decide
theorem test_dInit_again : ran 0x10002303 (booted only0) = some ([0],
    one 0x23 0x21 ++ one 0x23 0x81 ++ one 0x23 0xE3 ++ one 0x23 0xA1, (unit only0).slots.set 0 (boundSlot 0x23)) := by decide
theorem test_dBright : ran 0x11001000 (booted only0) = some ([0], one 0x70 0xEF, (booted only0).slots) := by decide
theorem test_dBright_unbound : faulted 0x11000700 (unit only0) = some (0, [], (unit only0).slots) := by decide
theorem test_dBlink : ran 0x12000300 (booted only0) = some ([0], one 0x70 0x87, (booted only0).slots) := by decide
theorem test_dBlink_out_of_range : ran 0x12000500 (booted only0) = some ([0], one 0x70 0x81, (booted only0).slots) := by
  decide

/-! ### Family 41 (V41) -/

/-- LED 3 on. -/
def led3 : DispBuf := #v[0, 0, 0, 0x1000, 0, 0, 0, 0]

/-- LEDs 3 and 11 on. -/
def led3and11 : DispBuf := #v[0, 0, 0, 0x1010, 0, 0, 0, 0]

/-- All 16 LEDs on. -/
def led16 : DispBuf := #v[0x8080, 0x4040, 0x2020, 0x1010, 0x0808, 0x0404, 0x0202, 0x0101]

theorem test_dSetLed : ran 0x19000B00 (withDisp 0 led3 (unit only0)) =
    some ([0], [], (withDisp 0 led3and11 (unit only0)).slots) := by decide
theorem test_dSetLed_out_of_range : ran 0x19001000 (withDisp 0 led3 (unit only0)) =
    some ([0], [], (withDisp 0 led3 (unit only0)).slots) := by decide
theorem test_dClrLed : ran 0x1A000300 (withDisp 0 led3and11 (unit only0)) =
    some ([0], [], (withDisp 0 #v[0, 0, 0, 0x0010, 0, 0, 0, 0] (unit only0)).slots) := by decide
theorem test_dClrLed_off : ran 0x1A000400 (withDisp 0 led3and11 (unit only0)) =
    some ([0], [], (withDisp 0 led3and11 (unit only0)).slots) := by decide
theorem test_dIsLed : ran 0x18000B00 (withDisp 0 led3and11 (unit only0)) =
    some ([1], [], (withDisp 0 led3and11 (unit only0)).slots) := by decide
theorem test_dIsLed_out_of_range : ran 0x18001300 (withDisp 0 led3and11 (unit only0)) =
    some ([0], [], (withDisp 0 led3and11 (unit only0)).slots) := by decide
theorem test_dClear : ran 0x14000000 (withDisp 0 led3and11 (unit only0)) = some ([0], [], (unit only0).slots) := by decide
theorem test_dFlush : ran 0x13000000 (withDisp 0 led16 (booted only0)) = some ([0],
    flushed 0x70 [0x80, 0x80, 0x40, 0x40, 0x20, 0x20, 0x10, 0x10, 0x08, 0x08, 0x04, 0x04, 0x02, 0x02, 0x01, 0x01],
    (withDisp 0 led16 (booted only0)).slots) := by decide
theorem test_dFlush_low_byte_first : ran 0x13000000 (withDisp 0 led3 (booted only0)) = some ([0],
    flushed 0x70 ([0, 0, 0, 0, 0, 0, 0, 0x10] ++ zero8), (withDisp 0 led3 (booted only0)).slots) := by decide

/-! ### Family 42 (V42) -/

theorem test_dScan : ran 0x15000000 (withAnswers [#v[1, 0, 4, 0, 0, 0]] (withKeys 0 #v[1, 0, 0, 0, 0, 0] #v[0, 0, 0, 0, 0, 0]
    (booted only0))) = some ([1], scanned 0x70 #v[1, 0, 4, 0, 0, 0],
      (withKeys 0 #v[1, 0, 4, 0, 0, 0] #v[1, 0, 0, 0, 0, 0] (booted only0)).slots) := by decide
theorem test_dScan_unchanged : ran 0x15000000 (withAnswers [#v[1, 0, 4, 0, 0, 0]] (withKeys 0 #v[1, 0, 4, 0, 0, 0]
    #v[1, 0, 0, 0, 0, 0] (booted only0))) = some ([0], scanned 0x70 #v[1, 0, 4, 0, 0, 0],
      (withKeys 0 #v[1, 0, 4, 0, 0, 0] #v[1, 0, 4, 0, 0, 0] (booted only0)).slots) := by decide

/-- V42.7: a change in the last byte alone is enough. -/
theorem test_changed_in_the_last_byte : changed #v[255, 255, 255, 255, 255, 254] #v[255, 255, 255, 255, 255, 255] = true := by
  decide

/-- The state of E4. -/
def e4 : State := withKeys 0 #v[0x41, 0, 4, 0, 0, 0] #v[1, 2, 0, 0, 0, 0] (unit only0)

/-- The responses to the words listed, each given in the same state. -/
def resps (ws : List Word) (s : State) : List (Option (List Resp)) := ws.map fun w => (ran w s).map fun p => p.1

theorem test_dIsPressed : resps [0x1C000000, 0x1C000100, 0x1C000200, 0x1C000600, 0x1C000300, 0x1C001000] e4 =
    [some [1], some [0], some [1], some [1], some [0], some [0]] := by decide
theorem test_dWasPressed : resps [0x1D000000, 0x1D000100, 0x1D000200, 0x1D000600, 0x1D000300, 0x1D00FF00] e4 =
    [some [1], some [1], some [0], some [0], some [0], some [0]] := by decide
theorem test_dJustPressed : resps [0x1E000000, 0x1E000100, 0x1E000200, 0x1E000600, 0x1E000300, 0x1E010000] e4 =
    [some [0], some [0], some [1], some [1], some [0], some [0]] := by decide
theorem test_dJustReleased : resps [0x1F000000, 0x1F000100, 0x1F000200, 0x1F000600, 0x1F001000, 0x1F040000] e4 =
    [some [0], some [1], some [0], some [0], some [0], some [0]] := by decide

/-! ### Family 43 (V43) -/

/-- Slots 0 and 2 are present (V43.14). -/
def zeroAndTwo : SlotSet := #v[true, false, true, false]

theorem test_gBright : ran 0x21001400 (booted zeroAndTwo) =
    some ([0], one 0x70 0xEF ++ one 0x72 0xEF, (booted zeroAndTwo).slots) := by decide
theorem test_gBright_unbound : faulted 0x21000300 half = some (1, one 0x70 0xE3, half.slots) := by decide
theorem test_gBlink : ran 0x22000100 (booted first2) =
    some ([0], one 0x70 0x83 ++ one 0x71 0x83, (booted first2).slots) := by decide
theorem test_gBlink_out_of_range : ran 0x22000700 (booted first2) =
    some ([0], one 0x70 0x81 ++ one 0x71 0x81, (booted first2).slots) := by decide

/-- V43.17: LEDs flat 0, 19 and 63 on. -/
def v43 (s : State) : State :=
  withDisp 0 #v[0x8000, 0, 0, 0, 0, 0, 0, 0] (withDisp 1 led3 (withDisp 3 #v[0, 0, 0, 0, 0, 0, 0, 1] s))

theorem test_gFlush : ran 0x23000000 (v43 (booted SlotSet.all)) = some ([0],
    flushed 0x70 ([0, 0x80, 0, 0, 0, 0, 0, 0] ++ zero8) ++ flushed 0x71 ([0, 0, 0, 0, 0, 0, 0, 0x10] ++ zero8) ++
      flushed 0x72 (zero8 ++ zero8) ++ flushed 0x73 (zero8 ++ [0, 0, 0, 0, 0, 0, 1, 0]),
    (v43 (booted SlotSet.all)).slots) := by decide
theorem test_gClear : ran 0x24000000 (v43 (booted SlotSet.all)) = some ([0], [], (booted SlotSet.all).slots) := by decide

/-- V43.19: no slot is skipped for an earlier result. -/
theorem test_gScan : ran 0x25000000 (withAnswers [#v[1, 0, 0, 0, 0, 0], #v[0, 0, 0, 8, 0, 0], #v[0, 0, 0, 0, 0, 0]]
    (withKeys 0 #v[1, 0, 0, 0, 0, 0] #v[0, 0, 0, 0, 0, 0] (booted no2))) = some ([1],
      scanned 0x70 #v[1, 0, 0, 0, 0, 0] ++ scanned 0x71 #v[0, 0, 0, 8, 0, 0] ++ scanned 0x73 #v[0, 0, 0, 0, 0, 0],
      (withKeys 0 #v[1, 0, 0, 0, 0, 0] #v[1, 0, 0, 0, 0, 0]
        (withKeys 1 #v[0, 0, 0, 8, 0, 0] #v[0, 0, 0, 0, 0, 0] (booted no2))).slots) := by decide

/-- V43.23. -/
theorem test_gScan_unbound : faulted 0x25000000 (withAnswers [#v[1, 0, 0, 0, 0, 0]] half) =
    some (1, scanned 0x70 #v[1, 0, 0, 0, 0, 0],
      (withKeys 0 #v[1, 0, 0, 0, 0, 0] #v[0, 0, 0, 0, 0, 0] half).slots) := by decide

theorem test_gScanP : ran 0x26000000 (withAnswers [#v[1, 0, 0, 0, 0, 0], #v[0, 0, 0, 0, 0, 0]] (booted SlotSet.all)) =
    some ([1], scanned 0x70 #v[1, 0, 0, 0, 0, 0] ++ scanned 0x71 #v[0, 0, 0, 0, 0, 0],
      (withKeys 0 #v[1, 0, 0, 0, 0, 0] #v[0, 0, 0, 0, 0, 0] (booted SlotSet.all)).slots) := by decide
theorem test_gScanS : ran 0x27000000 (withAnswers [#v[0, 0, 0, 0, 0, 0], #v[0, 0, 0, 0, 0, 0x20]] (booted SlotSet.all)) =
    some ([1], scanned 0x72 #v[0, 0, 0, 0, 0, 0] ++ scanned 0x73 #v[0, 0, 0, 0, 0, 0x20],
      (withKeys 3 #v[0, 0, 0, 0, 0, 0x20] #v[0, 0, 0, 0, 0, 0] (booted SlotSet.all)).slots) := by decide
theorem test_gScanS_none_present : ran 0x27000000 (booted first2) = some ([0], [], (booted first2).slots) := by decide

theorem test_gSetLed : ran 0x29001300 (unit no2) = some ([0], [], (withDisp 1 led3 (unit no2)).slots) := by decide
theorem test_gSetLed_absent : ran 0x29002300 (unit no2) = some ([0], [], (unit no2).slots) := by decide
theorem test_gIsLed : resps [0x28001300, 0x28000300, 0x28003F00, 0x28002300, 0x28004000, 0x2800FF00] (v43 (unit no2)) =
    [some [1], some [0], some [1], some [0], some [0], some [0]] := by decide
theorem test_gClrLed : ran 0x2A001300 (withDisp 1 led3and11 (unit no2)) =
    some ([0], [], (withDisp 1 #v[0, 0, 0, 0x0010, 0, 0, 0, 0] (unit no2)).slots) := by decide

/-- The state of V43.26 to V43.34, with one key of slot 1 just released. -/
def keys35 : State :=
  withKeys 2 #v[0, 0, 0, 8, 0, 0] #v[0, 0, 0, 0, 0, 0] (withKeys 1 #v[0, 0, 0, 0, 0, 0] #v[0, 0, 0, 8, 0, 0] (unit SlotSet.all))

theorem test_gIsPressed : resps [0x2C002300, 0x2C000300, 0x2C001300, 0x2C003300, 0x2C004000] keys35 =
    [some [1], some [0], some [0], some [0], some [0]] := by decide
theorem test_gWasPressed : resps [0x2D002300, 0x2D001300, 0x2D004000] keys35 = [some [0], some [1], some [0]] := by decide
theorem test_gJustPressed : resps [0x2E002300, 0x2E001300, 0x2E00FF00] keys35 = [some [1], some [0], some [0]] := by decide
theorem test_gJustReleased : resps [0x2F002300, 0x2F001300, 0x2F004000] keys35 = [some [0], some [1], some [0]] := by decide

/-! ### Family 44 (V44) -/

theorem test_xy2i : resps [0x30000302, 0x30000700, 0x30000007, 0x30000707, 0x30000800, 0x30000008, 0x3000FFFF] (unit only0) =
    [some [0x13], some [0x07], some [0x38], some [0x3F], some [0xFF], some [0xFF], some [0xFF]] := by decide
theorem test_xy2i_ref : resps [0x30000302, 0x30000400, 0x30000404] (State.initial (Config.ref only0)) =
    [some [0x0B], some [0x10], some [0x30]] := by decide
theorem test_i2xy : resps [0x31001300, 0x31000700, 0x31003F00, 0x31004000, 0x3100FF00] (unit only0) =
    [some [0x0302], some [0x0700], some [0x0707], some [0xFFFF], some [0xFFFF]] := by decide
theorem test_i2xy_ref : resps [0x31001300, 0x31000F00, 0x31003000] (State.initial (Config.ref only0)) =
    [some [0x0700], some [0x0303], some [0x0404]] := by decide

/-! ### The step -/

theorem test_step_runs_the_word : (stepped ((unit only0).withFetchWord 32 0x19000500)).map
    (fun t => (t.slots[0].disp, t.responses, t.pending, t.pos)) =
      some (#v[0, 0, 0, 0, 0, 0x0400, 0, 0], [0], [], 1) := by decide
theorem test_step_reserved : refusal ((unit only0).offer 0x20007015) = some (.reservedOpcode 0x20007015) := by decide
theorem test_step_ill_formed : refusal ((State.initial (ledEntry 0x8F)).offer 0x13000000) = some .illFormedTables := by decide
theorem test_step_concurrent : refusal { unit only0 with pending := [.concurrent 0x13000000 0x14000000] } =
    some .concurrentAccess := by decide
theorem test_step_idle : stepped State.reset = some State.reset := by decide
theorem test_a_read_beyond_the_answers_is_free : (booted only0).answerAt 0 = Config.oracleAnswer 0 := rfl

/-! ### Witnesses: for every obligation with hypotheses, a state and operands that meet them, per clause, at the ends of the
ranges -/

/-- Slots 0 and 3 are present and bound. -/
def LiveBound (s : State) : Prop :=
  (s.cfg.present[0] = true ∧ s.slots[0].bound = true) ∧ (s.cfg.present[3] = true ∧ s.slots[3].bound = true)

/-- Slots 0 and 3 are present and not bound. -/
def LiveUnbound (s : State) : Prop :=
  (s.cfg.present[0] = true ∧ s.slots[0].bound = false) ∧ (s.cfg.present[3] = true ∧ s.slots[3].bound = false)

/-- The operands of the absent slot 2, and of no slot at both ends of the range, are dead. -/
def DeadEnds (s : State) : Prop := DeadSlot s 2 ∧ DeadSlot s 4 ∧ DeadSlot s 255

/-- The index operands just above the range, and the largest. -/
def IndexEnds : Prop := 15 < (16 : Byte).toNat ∧ 15 < (255 : Byte).toNat

theorem live_bound : LiveBound (booted no2) := by unfold LiveBound; decide
theorem live_unbound : LiveUnbound (unit no2) := by unfold LiveUnbound; decide
theorem dead_ends : DeadEnds (booted no2) := by unfold DeadEnds DeadSlot; decide
theorem dead_ends_unbound : DeadEnds (unit no2) := by unfold DeadEnds DeadSlot; decide
theorem index_ends : IndexEnds := by unfold IndexEnds; decide

theorem witness_DecodedWordReEncodesToItsUsedBits : decode 0x23ABCDEF = .ok .gFlush := by decide

theorem witness_UnusedFieldsAreIgnored : decode 0x30AA0302 = .ok (.xy2i 3 2) ∧
    0x30AA0302 &&& (Instr.xy2i 3 2).usedMask = 0x30000302 &&& (Instr.xy2i 3 2).usedMask := by decide

/-- The ends of every range of R65, and the defined opcodes beside them. -/
theorem witness_ReservedOpcodesAreRefused : (unit only0).cfg.wellFormed = true ∧
    (∀ w ∈ [0x00000000#32, 0x0FFFFFFF, 0x16000000, 0x17000000, 0x1B000000, 0x20000000, 0x2B000000, 0x32000000, 0xFF000000],
      ReservedOp (w.toNat / 2 ^ 24)) ∧
    ∀ w ∈ [0x10000000#32, 0x15000000, 0x18000000, 0x1A000000, 0x1C000000, 0x1F000000, 0x21000000, 0x2A000000, 0x2C000000,
      0x31000000], ¬ ReservedOp (w.toNat / 2 ^ 24) := by
  refine ⟨by decide, ?_, ?_⟩ <;> simp [ReservedOp]

theorem witness_StepRunsThePresentedCommand : ((unit only0).offer 0x13000000).cfg.wellFormed = true ∧
    ((unit only0).offer 0x13000000).pending = .command 0x13000000 :: [] ∧ decode 0x13000000 = .ok (.dFlush 0) := by decide

theorem witness_UnitWaitsWithoutACommand : (unit only0).cfg.wellFormed = true ∧ (unit only0).pending = [] := by decide

theorem witness_FaultsExactlyAtTheFirstUnboundSlotReached : (∃ f, exec (.gBright 3) half = .fault f) ∧
    Reaches (.gBright 3) half 1 ∧ half.slots[1].bound = false :=
  ⟨⟨_, rfl⟩, rfl, rfl⟩

theorem witness_EveryCommandCompletesWithOneResponse :
    (∀ k, Reaches .gScan (booted no2) k → (booted no2).slots[k].bound = true) ∧
    ∀ k, Reaches (.dSetLed 0 3) (unit no2) k → (unit no2).slots[k].bound = true := by unfold Reaches; decide

theorem witness_DCommandsOnADeadSlotAreAbsorbed : DeadEnds (unit no2) := dead_ends_unbound

theorem witness_DInitBindsTheAddressAndStartsTheChip : LiveBound (booted no2) ∧ LiveUnbound (unit no2) ∧ DeadEnds (unit no2) :=
  ⟨live_bound, live_unbound, dead_ends_unbound⟩

theorem witness_DBrightSendsTheClampedLevel : LiveBound (booted no2) ∧ LiveUnbound (unit no2) ∧ DeadEnds (booted no2) :=
  ⟨live_bound, live_unbound, dead_ends⟩

theorem witness_DBlinkSendsTheRateOrOff : LiveBound (booted no2) ∧ LiveUnbound (unit no2) ∧ DeadEnds (booted no2) :=
  ⟨live_bound, live_unbound, dead_ends⟩

theorem witness_DIsLedAnswersItsBit : LiveUnbound (unit no2) ∧ DeadEnds (unit no2) ∧ IndexEnds :=
  ⟨live_unbound, dead_ends_unbound, index_ends⟩

theorem witness_DSetLedSetsOneBit : LiveUnbound (unit no2) ∧ DeadEnds (unit no2) ∧ IndexEnds :=
  ⟨live_unbound, dead_ends_unbound, index_ends⟩

theorem witness_DClrLedClearsOneBit : LiveUnbound (unit no2) ∧ DeadEnds (unit no2) ∧ IndexEnds :=
  ⟨live_unbound, dead_ends_unbound, index_ends⟩

theorem witness_DFlushSendsSeventeenBytes : LiveBound (booted no2) ∧ LiveUnbound (unit no2) ∧ DeadEnds (booted no2) :=
  ⟨live_bound, live_unbound, dead_ends⟩

theorem witness_DClearZeroesTheBuffer : LiveBound (booted no2) ∧ LiveUnbound (unit no2) ∧ DeadEnds (unit no2) :=
  ⟨live_bound, live_unbound, dead_ends_unbound⟩

theorem witness_LedBufferLaws : (unit no2).cfg.LedLutOk ∧ LiveUnbound (unit no2) ∧ IndexEnds ∧
    (∃ t, exec (.dSetLed (slotByte 0) (localByte 15)) (unit no2) = .next t) ∧ (0 : LocalIdx) ≠ 15 ∧
    (Instr.dSetLed 0 15).addressed = some (0 : SlotNo).val ∧ (1 : SlotNo) ≠ 0 :=
  ⟨by decide, live_unbound, index_ends, ⟨_, rfl⟩, by decide, rfl, by decide⟩

theorem witness_FlushShiftsOutTheBuffer : LiveBound (booted no2) := live_bound

theorem witness_DScanRotatesAndReads : LiveBound (booted no2) ∧ LiveUnbound (unit no2) ∧ DeadEnds (booted no2) :=
  ⟨live_bound, live_unbound, dead_ends⟩

theorem witness_DKeyPredicatesAnswerTheirBits : LiveUnbound (unit no2) ∧ DeadEnds (unit no2) ∧ IndexEnds :=
  ⟨live_unbound, dead_ends_unbound, index_ends⟩

/-- A command that scans nothing, and a scan of another slot. -/
theorem witness_EdgePredicateLaws :
    ((∀ k : SlotNo, (1 : Byte) = slotByte k → ¬ (Scans .gClear ∧ Reaches .gClear keys35 k)) ∧
      ∃ t, exec .gClear keys35 = .next t) ∧
    (∀ k : SlotNo, (1 : Byte) = slotByte k → ¬ (Scans (.dScan 3) ∧ Reaches (.dScan 3) (booted no2) k)) ∧
      ∃ t, exec (.dScan 3) (booted no2) = .next t :=
  ⟨⟨fun _ _ h => h.2, _, rfl⟩, fun k hk h => absurd (hk.trans h.2.1.symm) (by decide), _, rfl⟩

/-- A scan that finds nothing changed. -/
theorem witness_ScanResultIsTheXorReduction : LiveBound (booted no2) ∧
    ∃ t, exec (.dScan (slotByte 3)) (withAnswers [#v[0, 0, 0, 0, 0, 0]] (booted no2)) = .next t ∧ t.responses = [] ++ [0] :=
  ⟨live_bound, _, rfl, rfl⟩

theorem witness_OnlyScansWriteTheKeyBuffers : (∃ t, exec .gScan (booted no2) = .next t) ∧ ∃ t, exec .gClear keys35 = .next t :=
  ⟨⟨_, rfl⟩, ⟨_, rfl⟩⟩

/-- Every present slot bound; and, in `half`, slot 1 the first that is not. -/
def BroadcastCases (S : SlotSet) : Prop :=
  (∀ k ∈ presentIn S (booted no2), (booted no2).slots[k].bound = true) ∧
  (1 ∈ presentIn S half ∧ half.slots[1].bound = false ∧ ∀ j ∈ presentIn S half, j < 1 → half.slots[j].bound = true)

theorem broadcast_cases : BroadcastCases SlotSet.all := by unfold BroadcastCases; decide

theorem witness_GBrightSendsToEveryPresentSlot : BroadcastCases SlotSet.all := broadcast_cases
theorem witness_GBlinkSendsToEveryPresentSlot : BroadcastCases SlotSet.all := broadcast_cases
theorem witness_GFlushSendsEveryPresentBuffer : BroadcastCases SlotSet.all := broadcast_cases
theorem witness_GScanScansEveryPresentSlot : BroadcastCases SlotSet.all := broadcast_cases
theorem witness_GScanPScansThePrimarySet : BroadcastCases half.cfg.primary := by unfold BroadcastCases; decide

theorem witness_GScanSScansTheSecondarySet :
    (∀ k ∈ presentIn (booted no2).cfg.secondary (booted no2), (booted no2).slots[k].bound = true) ∧
    3 ∈ presentIn (unit no2).cfg.secondary (unit no2) ∧ (unit no2).slots[3].bound = false ∧
    ∀ j ∈ presentIn (unit no2).cfg.secondary (unit no2), j < 3 → (unit no2).slots[j].bound = true := by decide

theorem witness_GScanIsTrueIffSomeSlotChanged : ∃ t, exec .gScan (booted no2) = .next t := ⟨_, rfl⟩

theorem witness_GScanIsPrimaryThenSecondary : (booted no2).cfg.primary = #v[true, true, false, false] ∧
    (booted no2).cfg.secondary = #v[false, false, true, true] ∧ ∃ t, exec .gScan (booted no2) = .next t :=
  ⟨rfl, rfl, _, rfl⟩

/-- Flat indices just above the range, the largest, and the first and last of the absent slot 2. -/
def FlatEnds (s : State) : Prop :=
  63 < (64 : Byte).toNat ∧ 63 < (255 : Byte).toNat ∧ DeadSlot s (32 / 16) ∧ DeadSlot s (47 / 16)

theorem flat_ends : FlatEnds (unit no2) := by unfold FlatEnds DeadSlot; decide

theorem witness_RoutedCommandsAreThePerSlotCommands : LiveUnbound (unit no2) ∧ FlatEnds (unit no2) := ⟨live_unbound, flat_ends⟩
theorem witness_RoutedQueriesAnswerTheirBits : LiveUnbound (unit no2) ∧ FlatEnds (unit no2) := ⟨live_unbound, flat_ends⟩
theorem witness_RoutedWritesChangeOneBit : LiveUnbound (unit no2) ∧ FlatEnds (unit no2) := ⟨live_unbound, flat_ends⟩

theorem witness_Xy2iAnswersTheIndexOrTheMarker : (7 < (8 : Byte).toNat ∨ 7 < (0 : Byte).toNat) ∧
    (7 < (0 : Byte).toNat ∨ 7 < (8 : Byte).toNat) ∧ (7 < (7 : Byte).toNat ∨ 7 < (255 : Byte).toNat) := by decide

theorem witness_I2xyAnswersThePairOrTheSentinel : 63 < (64 : Byte).toNat ∧ 63 < (255 : Byte).toNat := by decide

theorem witness_CoordinateLookUpsAreInverse : (unit only0).cfg.CoordTablesOk ∧ (Config.ref only0).CoordTablesOk := by decide

theorem witness_InitialStateMeetsTheInvariant : (Config.t0 only0).wellFormed = true ∧ (Config.ref only0).wellFormed = true := by
  decide

/-- A unit in use: slot 0 has had its `D_INIT` and one scan, LED 3 is on, a `D_SETLED 0, 11` comes next. -/
def inUse : State :=
  { withKeys 0 #v[1, 0, 0, 0, 0, 0] #v[0, 0, 0, 0, 0, 0] (withDisp 0 led3 (booted only0)) with
    trace := one 0x70 0x21 ++ one 0x70 0x81 ++ one 0x70 0xEF ++ one 0x70 0xA1 ++ scanned 0x70 #v[1, 0, 0, 0, 0, 0]
    responses := [0, 1, 0]
    pos := 3
    draws := 1
    pending := [.command 0x19000B00] }

theorem in_use_framed : TraceFramed inUse := by unfold TraceFramed; decide

theorem witness_EveryStepKeepsTheInvariant : Inv inUse ∧ ∃ t, step inUse = .next t :=
  ⟨⟨by decide, by unfold UnmappedDisplayZero; decide, by unfold UnboundUnscanned; decide, by unfold AbsentUntouched; decide,
    in_use_framed, rfl, rfl⟩, ⟨_, rfl⟩⟩

theorem witness_NoStepWritesTheConfiguration : ∃ t, step inUse = .next t := ⟨_, rfl⟩

theorem witness_OnlyDInitWritesAddressAndBound : (∃ t, exec (.dInit (slotByte 0) 0x23 3) inUse = .next t) ∧
    ∃ t, exec .gScan inUse = .next t := ⟨⟨_, rfl⟩, ⟨_, rfl⟩⟩

/-- `unit no2` with another address in the unbound slot 1. -/
def otherAddress : State := (unit no2).setSlot 1 { (unit no2).slots[1] with addr := 0x55 }

theorem witness_UnboundAddressIsNeverObserved : Agree (unit no2) otherAddress ∧ unit no2 ≠ otherAddress := by
  unfold Agree SlotsAgree; decide

theorem witness_ACommandTouchesNoOtherSlot : (Instr.dScan 0).addressed = some 0 ∧ (3 : SlotNo).val ≠ 0 ∧
    (Instr.gSetLed 16).addressed = some 1 ∧ (0 : SlotNo).val ≠ 1 := by decide

theorem witness_OnlyTransportCommandsEmit : (∀ k, ¬ Reaches .gScanS (booted first2) k) ∧
    (∀ a b c, Instr.gScanS ≠ .dInit a b c) ∧ ∃ t, exec .gScanS (booted first2) = .next t :=
  ⟨by unfold Reaches; decide, by simp, ⟨_, rfl⟩⟩

theorem witness_TransportCostsAreTheTable : (∃ t, exec .gFlush (booted no2) = .next t) ∧
    ∃ t, exec (.dInit 2 0x72 15) (booted no2) = .next t := ⟨⟨_, rfl⟩, ⟨_, rfl⟩⟩

theorem witness_FlushMakesTheChipShowTheBuffer : inUse.cfg.present[0] = true ∧ inUse.slots[0].bound = true ∧
    TraceFramed inUse ∧ (0x71 : BusAddr) ≠ inUse.slots[0].addr := ⟨rfl, rfl, in_use_framed, by decide⟩

theorem witness_ChipDisplayChangesOnlyAtAFlush : ¬ Flushes .gScan ∧ TraceFramed inUse ∧ ∃ t, exec .gScan inUse = .next t :=
  ⟨by unfold Flushes; simp, in_use_framed, ⟨_, rfl⟩⟩

theorem witness_DInitSetsUpTheChip : inUse.cfg.present[0] = true ∧ TraceFramed inUse := ⟨rfl, in_use_framed⟩

theorem witness_BootedRunsNeverStop : inUse.cfg.wellFormed = true ∧ Booted inUse ∧ Defined inUse.pending := by
  refine ⟨by decide, by unfold Booted; decide, ?_⟩
  intro x hx
  cases hx with
  | head => exact ⟨0x19000B00, .dSetLed 0 11, rfl, rfl⟩
  | tail _ h => cases h

theorem witness_BootedStepsCompleteAndStayBooted : inUse.cfg.wellFormed = true ∧ Booted inUse ∧ Defined inUse.pending :=
  witness_BootedRunsNeverStop

end Sys2Proof.Tests
end

