-- ==== Sys2Proof/Proofs/SlotEffects.lean ====
section
/-! PROOFS. What a completed command leaves in each slot, said once per command: nothing, or one effect of three kinds. -/

namespace Sys2Proof.Machine

/-! ### Routing -/

theorem route_of_none {b : Byte} (h : flatOperand b = none) (f : LocalIdx → SlotNo → State → SlotResult) (s : State) :
    route b f s = absorb 0 s := by
  simp only [route, h]

theorem route_of_some {b : Byte} {k : FlatIdx} (h : flatOperand b = some k) (f : LocalIdx → SlotNo → State → SlotResult)
    (s : State) : route b f s =
      if s.present (flatSlot k) = true then finish (f (flatLocal k) (flatSlot k) s) else absorb 0 s := by
  simp only [route, h]

/-! ### The display buffer -/

/-- Some local index reaches bit `b` of display word `w` (R34). -/
def Reached (cfg : Config) (w : Fin 8) (b : Fin 16) : Prop := ∃ l : LocalIdx, cfg.ledLut[l].toNat = 16 * w.val + b.val

/-- Every bit lit in `d'` was lit in `d` or is one that a local index reaches. -/
def LightsReachedOnly (cfg : Config) (d d' : DispBuf) : Prop :=
  ∀ (w : Fin 8) (b : Fin 16), d'[w].getLsbD b.val = true → d[w].getLsbD b.val = true ∨ Reached cfg w b

theorem lightsReachedOnly_clear (cfg : Config) (d : DispBuf) : LightsReachedOnly cfg d #v[0, 0, 0, 0, 0, 0, 0, 0] := by
  intro w b h
  fin_cases w <;> simp at h

/-- A word write that lights no bit but those reached through its word lights reached bits only. -/
theorem lightsReachedOnly_setIfInBounds {cfg : Config} {d : DispBuf} {n : Nat} {f : DispWord → DispWord}
    (hf : ∀ (w : Fin 8) (b : Fin 16) (v : DispWord), w.val = n → (f v).getLsbD b.val = true →
      v.getLsbD b.val = true ∨ Reached cfg w b) :
    LightsReachedOnly cfg d (d.setIfInBounds n (f (d[n]?.getD 0))) := by
  intro w b h
  by_cases hw : w.val = n
  · subst hw
    refine hf w b d[w] rfl ?_
    simpa using h
  · left
    simpa [Vector.getElem_setIfInBounds, Ne.symm hw] using h

/-- `D_SETLED` lights the bit of its index only (R92). -/
theorem lightsReachedOnly_setLed (cfg : Config) (d : DispBuf) (i : LocalIdx) :
    LightsReachedOnly cfg d
      (d.setIfInBounds (ledPos cfg i).1 (d[(ledPos cfg i).1]?.getD 0 ||| (1#16 <<< (ledPos cfg i).2))) := by
  refine lightsReachedOnly_setIfInBounds (f := (· ||| (1#16 <<< (ledPos cfg i).2))) fun w b v hw h => ?_
  by_cases hb : b.val = (ledPos cfg i).2
  · right
    simp only [ledPos, entryHigh_eq, entryLow_eq] at hw hb
    exact ⟨i, by omega⟩
  · left
    simp only [BitVec.getLsbD_or, BitVec.getLsbD_shiftLeft, BitVec.getLsbD_one, Bool.or_eq_true] at h
    refine h.resolve_right fun h1 => ?_
    simp at h1
    omega

/-- `D_CLRLED` lights nothing (R93). -/
theorem lightsReachedOnly_clrLed (cfg : Config) (d : DispBuf) (i : LocalIdx) :
    LightsReachedOnly cfg d
      (d.setIfInBounds (ledPos cfg i).1 (d[(ledPos cfg i).1]?.getD 0 &&& ~~~(1#16 <<< (ledPos cfg i).2))) := by
  refine lightsReachedOnly_setIfInBounds (f := (· &&& ~~~(1#16 <<< (ledPos cfg i).2))) fun w b v _ h => ?_
  rw [BitVec.getLsbD_and, Bool.and_eq_true] at h
  exact .inl h.1

/-! ### The effects, and the operations that have them -/

/-- What the command `i` may do to a slot `k` in state `x`: bind it, scan it, or write its display buffer. -/
inductive SlotEffect (i : Instr) (cfg : Config) (k : SlotNo) (x : Slot) : Slot → Prop where
  /-- R81 -/
  | bind {addr brightness : Byte} (command : i = .dInit (slotByte k) addr brightness) :
      SlotEffect i cfg k x { x with addr := addressOperand addr, bound := true }
  /-- R101 -/
  | scan (r : KeyBytes) (command : Scans i) (bound : x.bound = true) :
      SlotEffect i cfg k x { x with keyPrev := x.keyCur, keyCur := r }
  /-- R92, R93, R95 -/
  | display (d : DispBuf) (lights : LightsReachedOnly cfg x.disp d) : SlotEffect i cfg k x { x with disp := d }

/-- When `f` completes, it has left the configuration and every slot but `k` alone, and done to slot `k` nothing or one
effect of the command `i`. -/
def Affects (i : Instr) (k : SlotNo) (f : State → SlotResult) : Prop :=
  ∀ (s t : State) (c : Resp), f s = .ok (c, t) → t.cfg = s.cfg ∧ (∀ j : SlotNo, j ≠ k → t.slots[j] = s.slots[j]) ∧
    (t.slots[k] = s.slots[k] ∨ SlotEffect i s.cfg k s.slots[k] t.slots[k])

theorem affects_of_effect {i : Instr} {k : SlotNo} {f : State → SlotResult} {g : State → Slot}
    (hf : ∀ s t c, f s = .ok (c, t) →
      t.cfg = s.cfg ∧ t.slots = s.slots.set k (g s) ∧ SlotEffect i s.cfg k s.slots[k] (g s)) : Affects i k f := by
  intro s t c h
  obtain ⟨hcfg, hslots, heff⟩ := hf _ _ _ h
  have hk : t.slots[k] = g s := by simp [hslots]
  refine ⟨hcfg, fun j hj => ?_, .inr (hk ▸ heff)⟩
  rw [hslots]
  exact State.setSlot_other s (g s) hj

/-- A per-slot operation that only emits events, or does nothing at all. -/
def EmitsOnly (f : SlotNo → State → SlotResult) : Prop :=
  ∀ (k : SlotNo) (s t : State) (c : Resp), f k s = .ok (c, t) → ∃ evs, t = s.emit evs

theorem EmitsOnly.affects {f : SlotNo → State → SlotResult} (hf : EmitsOnly f) (i : Instr) (k : SlotNo) :
    Affects i k (f k) := by
  intro s t c h
  obtain ⟨evs, rfl⟩ := hf k s t c h
  exact ⟨rfl, fun _ _ => rfl, .inl rfl⟩

theorem emitsOnly_bright (level : Byte) : EmitsOnly (brightSlot level) := by
  intro k s t c h
  cases hb : s.slots[k].bound with
  | true => rw [brightSlot_of_bound level hb] at h; cases h; exact ⟨_, rfl⟩
  | false => rw [brightSlot_of_unbound level hb] at h; cases h

theorem emitsOnly_blink (rate : Byte) : EmitsOnly (blinkSlot rate) := by
  intro k s t c h
  cases hb : s.slots[k].bound with
  | true => rw [blinkSlot_of_bound rate hb] at h; cases h; exact ⟨_, rfl⟩
  | false => rw [blinkSlot_of_unbound rate hb] at h; cases h

theorem emitsOnly_flush : EmitsOnly flushSlot := by
  intro k s t c h
  cases hb : s.slots[k].bound with
  | true => rw [flushSlot_of_bound hb] at h; cases h; exact ⟨_, rfl⟩
  | false => rw [flushSlot_of_unbound hb] at h; cases h

/-- A query answers a value and leaves the state alone. -/
theorem emitsOnly_query {f : SlotNo → State → SlotResult} (hf : ∀ k s, ∃ c, f k s = .ok (c, s)) : EmitsOnly f := by
  intro k s t c h
  obtain ⟨d, hd⟩ := hf k s
  rw [hd] at h
  cases h; exact ⟨[], (State.emit_nil _).symm⟩

theorem emitsOnly_isLed (l : LocalIdx) : EmitsOnly (isLedSlot l) := emitsOnly_query fun _ _ => ⟨_, rfl⟩

theorem emitsOnly_isPressed (l : LocalIdx) : EmitsOnly (isPressedSlot l) := emitsOnly_query fun _ _ => ⟨_, rfl⟩

theorem emitsOnly_wasPressed (l : LocalIdx) : EmitsOnly (wasPressedSlot l) := emitsOnly_query fun _ _ => ⟨_, rfl⟩

theorem emitsOnly_justPressed (l : LocalIdx) : EmitsOnly (justPressedSlot l) := emitsOnly_query fun _ _ => ⟨_, rfl⟩

theorem emitsOnly_justReleased (l : LocalIdx) : EmitsOnly (justReleasedSlot l) := emitsOnly_query fun _ _ => ⟨_, rfl⟩

theorem affects_init (addr brightness : Byte) (k : SlotNo) :
    Affects (.dInit (slotByte k) addr brightness) k (initSlot addr brightness k) := by
  refine affects_of_effect (g := fun s => { s.slots[k] with addr := addressOperand addr, bound := true }) fun s t c h => ?_
  rw [initSlot_eq] at h
  cases h; exact ⟨rfl, rfl, .bind rfl⟩

theorem affects_scan {i : Instr} (hi : Scans i) (k : SlotNo) : Affects i k (scanSlot k) := by
  refine affects_of_effect (g := fun s => { s.slots[k] with keyPrev := s.slots[k].keyCur, keyCur := s.answerAt 0 })
    fun s t c h => ?_
  cases hb : s.slots[k].bound with
  | true => rw [scanSlot_of_bound hb] at h; cases h; exact ⟨rfl, rfl, .scan _ hi hb⟩
  | false => rw [scanSlot_of_unbound hb] at h; cases h

theorem affects_setLed (i : Instr) (l : LocalIdx) (k : SlotNo) : Affects i k (setLedSlot l k) :=
  affects_of_effect fun _ _ _ h => by cases h; exact ⟨rfl, rfl, .display _ (lightsReachedOnly_setLed _ _ l)⟩

theorem affects_clrLed (i : Instr) (l : LocalIdx) (k : SlotNo) : Affects i k (clrLedSlot l k) :=
  affects_of_effect fun _ _ _ h => by cases h; exact ⟨rfl, rfl, .display _ (lightsReachedOnly_clrLed _ _ l)⟩

theorem affects_clear (i : Instr) (k : SlotNo) : Affects i k (clearSlot k) :=
  affects_of_effect fun _ _ _ h => by cases h; exact ⟨rfl, rfl, .display _ (lightsReachedOnly_clear _ _)⟩

theorem affects_atLocal {i : Instr} {k : SlotNo} {f : LocalIdx → SlotNo → State → SlotResult}
    (hf : ∀ l, Affects i k (f l k)) (b : Byte) : Affects i k (atLocal b f k) := by
  intro s t c h
  cases hb : localOperand b with
  | some l => rw [atLocal_of_some hb] at h; exact hf l _ _ _ h
  | none => rw [atLocal_of_none hb] at h; cases h; exact ⟨rfl, fun _ _ => rfl, .inl rfl⟩

/-! ### The delegation schemes and `exec` -/

/-- Each slot is as it was, or is present and has had one effect of the command `i`. -/
def SlotsAfter (i : Instr) (s t : State) : Prop :=
  ∀ k : SlotNo, t.slots[k] = s.slots[k] ∨ (s.present k = true ∧ SlotEffect i s.cfg k s.slots[k] t.slots[k])

theorem slotsAfter_of_slots_eq {i : Instr} {s t : State} (h : t.slots = s.slots) : SlotsAfter i s t :=
  fun _ => .inl (by rw [h])

theorem Affects.finish {i : Instr} {k : SlotNo} {f : State → SlotResult} (hf : Affects i k f) {s t : State}
    (hp : s.present k = true) (h : finish (f s) = .next t) : SlotsAfter i s t := by
  obtain ⟨c, u, hu, rfl⟩ := finish_eq_next.1 h
  obtain ⟨-, hother, hsame⟩ := hf _ _ _ hu
  intro j
  by_cases hj : j = k
  · subst hj
    exact hsame.imp id fun he => ⟨hp, he⟩
  · exact .inl (hother j hj)

theorem perSlot_slotsAfter {i : Instr} {a : Byte} {f : SlotNo → State → SlotResult}
    (hf : ∀ k, a = slotByte k → Affects i k (f k)) {s t : State} (h : perSlot a f s = .next t) : SlotsAfter i s t := by
  cases hl : liveSlot s a with
  | none => rw [perSlot_of_dead hl] at h; cases h; exact slotsAfter_of_slots_eq rfl
  | some k =>
    rw [perSlot_of_live hl] at h
    obtain ⟨ha, hp⟩ := liveSlot_eq_some.1 hl
    exact (hf k (eq_slotByte.2 ha)).finish hp h

theorem route_slotsAfter {i : Instr} {b : Byte} {f : LocalIdx → SlotNo → State → SlotResult}
    (hf : ∀ l k, Affects i k (f l k)) {s t : State} (h : route b f s = .next t) : SlotsAfter i s t := by
  cases hb : flatOperand b with
  | none => rw [route_of_none hb] at h; cases h; exact slotsAfter_of_slots_eq rfl
  | some n =>
    rw [route_of_some hb] at h
    split at h
    · rename_i hp
      exact (hf _ _).finish hp h
    · cases h; exact slotsAfter_of_slots_eq rfl

/-- Slots visited once each: a slot not listed is left alone, and a slot listed has at most one effect, since the visits
before and after its own leave it alone. -/
theorem visit_slots {i : Instr} {f : SlotNo → State → SlotResult} (hf : ∀ k, Affects i k (f k)) {S : SlotSet}
    (ks : List SlotNo) : ∀ {any any' : Bool} {s t : State}, ks.Nodup → visit S f ks any s = .ok (any', t) →
      SlotsAfter i s t ∧ ∀ j ∉ ks, t.slots[j] = s.slots[j] := by
  induction ks with
  | nil => intro any any' s t _ h; cases h; exact ⟨slotsAfter_of_slots_eq rfl, fun _ _ => rfl⟩
  | cons k ks ih =>
    intro any any' s t hnd h
    obtain ⟨hk, hnd⟩ := List.nodup_cons.1 hnd
    rw [visit] at h
    split at h
    · rename_i hvisit
      have hp : s.present k = true := (Bool.and_eq_true_iff.1 hvisit).2
      split at h
      · rename_i c u hu
        obtain ⟨hcfg, hother, hsame⟩ := hf k _ _ _ hu
        obtain ⟨hafter, hnot⟩ := ih hnd h
        refine ⟨fun j => ?_, fun j hj => ?_⟩
        · by_cases hjk : j = k
          · subst hjk
            rw [hnot j hk]
            exact hsame.imp id fun he => ⟨hp, he⟩
          · have := hafter j
            rwa [hother j hjk, State.present, hcfg] at this
        · rw [List.mem_cons, not_or] at hj
          rw [hnot j hj.2, hother j hj.1]
      · cases h
    · obtain ⟨hafter, hnot⟩ := ih hnd h
      exact ⟨hafter, fun j hj => hnot j fun hm => hj (List.mem_cons_of_mem _ hm)⟩

theorem slotOrder_nodup : slotOrder.Nodup := by decide

theorem broadcast_slotsAfter {i : Instr} {f : SlotNo → State → SlotResult} (hf : ∀ k, Affects i k (f k)) {s t : State}
    (h : broadcast f s = .next t) : SlotsAfter i s t := by
  obtain ⟨any, u, hu, rfl⟩ := broadcast_eq_next.1 h
  exact (visit_slots hf slotOrder slotOrder_nodup hu).1

theorem scanSet_slotsAfter {i : Instr} {S : SlotSet} {f : SlotNo → State → SlotResult} (hf : ∀ k, Affects i k (f k))
    {s t : State} (h : scanSet S f s = .next t) : SlotsAfter i s t := by
  obtain ⟨any, u, hu, rfl⟩ := scanSet_eq_next.1 h
  exact (visit_slots hf slotOrder slotOrder_nodup hu).1

/-- What a completed command leaves in each slot. -/
theorem exec_slotsAfter {i : Instr} {s t : State} (h : exec i s = .next t) : SlotsAfter i s t := by
  cases i with
  | dInit a b c => exact perSlot_slotsAfter (fun k hk => hk ▸ affects_init b c k) h
  | dBright a b => exact perSlot_slotsAfter (fun k _ => (emitsOnly_bright b).affects _ k) h
  | dBlink a b => exact perSlot_slotsAfter (fun k _ => (emitsOnly_blink b).affects _ k) h
  | dFlush a => exact perSlot_slotsAfter (fun k _ => emitsOnly_flush.affects _ k) h
  | dClear a => exact perSlot_slotsAfter (fun k _ => affects_clear _ k) h
  | dScan a => exact perSlot_slotsAfter (fun k _ => affects_scan (.inl ⟨a, rfl⟩) k) h
  | dIsLed a b => exact perSlot_slotsAfter (fun k _ => affects_atLocal (fun l => (emitsOnly_isLed l).affects _ k) b) h
  | dSetLed a b => exact perSlot_slotsAfter (fun k _ => affects_atLocal (fun l => affects_setLed _ l k) b) h
  | dClrLed a b => exact perSlot_slotsAfter (fun k _ => affects_atLocal (fun l => affects_clrLed _ l k) b) h
  | dIsPressed a b =>
    exact perSlot_slotsAfter (fun k _ => affects_atLocal (fun l => (emitsOnly_isPressed l).affects _ k) b) h
  | dWasPressed a b =>
    exact perSlot_slotsAfter (fun k _ => affects_atLocal (fun l => (emitsOnly_wasPressed l).affects _ k) b) h
  | dJustPressed a b =>
    exact perSlot_slotsAfter (fun k _ => affects_atLocal (fun l => (emitsOnly_justPressed l).affects _ k) b) h
  | dJustReleased a b =>
    exact perSlot_slotsAfter (fun k _ => affects_atLocal (fun l => (emitsOnly_justReleased l).affects _ k) b) h
  | gBright b => exact broadcast_slotsAfter ((emitsOnly_bright b).affects _) h
  | gBlink b => exact broadcast_slotsAfter ((emitsOnly_blink b).affects _) h
  | gFlush => exact broadcast_slotsAfter (emitsOnly_flush.affects _) h
  | gClear => exact broadcast_slotsAfter (affects_clear _) h
  | gScan => exact scanSet_slotsAfter (affects_scan (.inr (.inl rfl))) h
  | gScanP => exact scanSet_slotsAfter (affects_scan (.inr (.inr (.inl rfl)))) h
  | gScanS => exact scanSet_slotsAfter (affects_scan (.inr (.inr (.inr rfl)))) h
  | gIsLed b => exact route_slotsAfter (fun l => (emitsOnly_isLed l).affects _) h
  | gSetLed b => exact route_slotsAfter (affects_setLed _) h
  | gClrLed b => exact route_slotsAfter (affects_clrLed _) h
  | gIsPressed b => exact route_slotsAfter (fun l => (emitsOnly_isPressed l).affects _) h
  | gWasPressed b => exact route_slotsAfter (fun l => (emitsOnly_wasPressed l).affects _) h
  | gJustPressed b => exact route_slotsAfter (fun l => (emitsOnly_justPressed l).affects _) h
  | gJustReleased b => exact route_slotsAfter (fun l => (emitsOnly_justReleased l).affects _) h
  | xy2i b c => cases h; exact slotsAfter_of_slots_eq rfl
  | i2xy b => cases h; exact slotsAfter_of_slots_eq rfl

/-! ### Who writes what -/

/-- Settles O26: of the three effects, binding and display writes keep both key buffers, and a scan is a scan's. -/
theorem onlyScansWriteTheKeyBuffers : Obligations.OnlyScansWriteTheKeyBuffers := by
  intro i s t k h
  rcases exec_slotsAfter h k with hsame | ⟨-, heff⟩
  · exact .inl (by rw [hsame]; exact ⟨rfl, rfl⟩)
  · generalize t.slots[k] = y at heff
    cases heff with
    | bind _ => exact .inl ⟨rfl, rfl⟩
    | scan r hi _ => exact .inr ⟨hi, rfl⟩
    | display d _ => exact .inl ⟨rfl, rfl⟩

/-- Settles O47: of the three effects, scans and display writes keep address and bound bit, and binding is the slot's own
`D_INIT`'s. -/
theorem onlyDInitWritesAddressAndBound : Obligations.OnlyDInitWritesAddressAndBound := by
  intro i s t k h
  rcases exec_slotsAfter h k with hsame | ⟨-, heff⟩
  · exact .inl (by rw [hsame]; exact ⟨rfl, rfl⟩)
  · generalize t.slots[k] = y at heff
    cases heff with
    | @bind addr brightness hi => exact .inr ⟨addr, brightness, hi, rfl, rfl⟩
    | scan r _ _ => exact .inl ⟨rfl, rfl⟩
    | display d _ => exact .inl ⟨rfl, rfl⟩

end Sys2Proof.Machine
end

