-- ==== Sys2Proof/Proofs/Invariant.lean ====
section
/-! PROOFS. The invariant of a run holds at reset and every step keeps it: its slot conjuncts by the effects of a command,
its trace conjuncts by the transactions of the actions. -/

namespace Sys2Proof.Machine

/-! ### What no action writes -/

/-- No action writes the configuration, the responses, the position or the host's list. -/
theorem Action.keeps {s t : State} (h : Action s t) :
    t.cfg = s.cfg ∧ t.responses = s.responses ∧ t.pos = s.pos ∧ t.pending = s.pending := by
  cases h <;> exact ⟨rfl, rfl, rfl, rfl⟩

theorem Actions.keeps {s t : State} (h : Actions s t) :
    t.cfg = s.cfg ∧ t.responses = s.responses ∧ t.pos = s.pos ∧ t.pending = s.pending := by
  induction h with
  | refl => exact ⟨rfl, rfl, rfl, rfl⟩
  | tail _ hact ih =>
    obtain ⟨hcfg, hresp, hpos, hpend⟩ := ih
    obtain ⟨hcfg', hresp', hpos', hpend'⟩ := hact.keeps
    exact ⟨hcfg'.trans hcfg, hresp'.trans hresp, hpos'.trans hpos, hpend'.trans hpend⟩

/-- A completed command writes neither the configuration nor the position nor the host's list, and gives one response. -/
theorem exec_keeps {i : Instr} {s t : State} (h : exec i s = .next t) :
    t.cfg = s.cfg ∧ (∃ r, t.responses = s.responses ++ [r]) ∧ t.pos = s.pos ∧ t.pending = s.pending := by
  obtain ⟨u, r, hact, rfl⟩ := exec_completed h
  obtain ⟨hcfg, hresp, hpos, hpend⟩ := hact.keeps
  exact ⟨hcfg, ⟨r, by rw [State.respond_responses, hresp]⟩, hpos, hpend⟩

/-- Settles O46: a step that waits writes nothing, and a command no configuration. -/
theorem noStepWritesTheConfiguration : Obligations.NoStepWritesTheConfiguration := by
  intro s t h
  obtain ⟨-, ⟨-, rfl⟩ | ⟨w, rest, i, -, -, hexec⟩⟩ := step_next h
  · rfl
  · exact (exec_keeps hexec).1

/-! ### What the actions emit -/

/-- What was appended to the trace reads as completed transactions of the map of R44, and its reads were counted. -/
def Transacts (s t : State) : Prop :=
  ∃ evs ts, t.trace = s.trace ++ evs ∧ ReadsAs evs ts ∧ (∀ x ∈ ts, x.ok = true) ∧
    t.draws = s.draws + evs.countP isRead

theorem transacts_of_silent {s t : State} (htrace : t.trace = s.trace) (hdraws : t.draws = s.draws) : Transacts s t :=
  ⟨[], [], by simp [htrace], readsAs_nil, by simp, by simp [hdraws]⟩

theorem Transacts.trans {s t u : State} (h₁ : Transacts s t) (h₂ : Transacts t u) : Transacts s u := by
  obtain ⟨e₁, t₁, htr₁, hread₁, hok₁, hdr₁⟩ := h₁
  obtain ⟨e₂, t₂, htr₂, hread₂, hok₂, hdr₂⟩ := h₂
  refine ⟨e₁ ++ e₂, t₁ ++ t₂, ?_, hread₁.append hread₂, ?_, ?_⟩
  · rw [htr₂, htr₁, List.append_assoc]
  · exact List.forall_mem_append.2 ⟨hok₁, hok₂⟩
  · rw [hdr₂, hdr₁, List.countP_append, Nat.add_assoc]

theorem countP_isRead_writeEvents (a : BusAddr) (bs : List Byte) : (writeEvents a bs).countP isRead = 0 := by
  simp [writeEvents, List.countP_map, Function.comp_def, isRead]

theorem countP_isRead_cmdEvents (a : BusAddr) (vs : List Byte) : (cmdEvents a vs).countP isRead = 0 := by
  induction vs with
  | nil => rfl
  | cons v vs ih => rw [cmdEvents_cons, List.countP_append, countP_isRead_writeEvents, ih]

theorem transacts_write {bs : List Byte} (hbs : commandBytesOk bs = true) (a : BusAddr) (s : State) :
    Transacts s (s.emit (writeEvents a bs)) :=
  ⟨_, _, rfl, readsAs_write a bs, by simpa [Transaction.ok] using hbs, by simp [countP_isRead_writeEvents]⟩

/-- The brightness byte of any level is one of the sixteen of R44. -/
theorem commandBytesOk_bright (level : Byte) : commandBytesOk [brightByte (clampLevel level)] = true := by
  have hall : ∀ l : Fin 16, commandBytesOk [brightByte (BitVec.ofNat 8 l.val)] = true := by decide
  unfold clampLevel
  split
  · simpa using hall ⟨level.toNat, by omega⟩
  · decide

/-- The blink byte of any rate is one of the four of R44. -/
theorem commandBytesOk_blink (rate : Byte) : commandBytesOk [blinkByte (selectRate rate)] = true := by
  have hall : ∀ r : Fin 4, commandBytesOk [blinkByte (BitVec.ofNat 8 r.val)] = true := by decide
  unfold selectRate
  split
  · simpa using hall ⟨rate.toNat, by omega⟩
  · decide

/-- The 17 bytes of a flush are the display write of R44. -/
theorem commandBytesOk_flush (d : DispBuf) : commandBytesOk (displayByte :: dataBytes d) = true := by
  have hlen := dataBytes_length d
  cases hdata : dataBytes d with
  | nil => simp [hdata] at hlen
  | cons v vs => rw [hdata] at hlen; simp [commandBytesOk, displayByte, hlen]

theorem startupBytes_ok (brightness : Byte) : ∀ v ∈ startupBytes brightness, commandBytesOk [v] = true := by
  have := commandBytesOk_bright brightness
  simp only [startupBytes, List.forall_mem_cons]
  exact ⟨by decide, by decide, this, by decide, by simp⟩

theorem Action.transacts {s t : State} (h : Action s t) : Transacts s t := by
  cases h with
  | bind k addr brightness _ =>
    refine ⟨_, _, rfl, readsAs_cmd _ _, ?_, by simp [countP_isRead_cmdEvents, State.bind]⟩
    simpa [Transaction.ok] using startupBytes_ok brightness
  | bright k level _ _ => exact transacts_write (commandBytesOk_bright level) _ s
  | blink k rate _ _ => exact transacts_write (commandBytesOk_blink rate) _ s
  | flush k _ _ => exact transacts_write (commandBytesOk_flush _) _ s
  | setLed k i _ => exact transacts_of_silent rfl rfl
  | clrLed k i _ => exact transacts_of_silent rfl rfl
  | clear k _ => exact transacts_of_silent rfl rfl
  | scan k _ _ =>
    refine ⟨_, _, rfl, readsAs_scan _ _, ?_, rfl⟩
    simp [Transaction.ok, commandBytesOk, keyScanByte]

theorem Actions.transacts {s t : State} (h : Actions s t) : Transacts s t := by
  induction h with
  | refl => exact transacts_of_silent rfl rfl
  | tail _ hact ih => exact ih.trans hact.transacts

/-- What a completed command emits. -/
theorem exec_transacts {i : Instr} {s t : State} (h : exec i s = .next t) : Transacts s t := by
  obtain ⟨u, r, hact, rfl⟩ := exec_completed h
  exact hact.transacts

theorem TraceFramed.transacts {s t : State} (hs : TraceFramed s) (h : Transacts s t) : TraceFramed t := by
  obtain ⟨evs, ts, htrace, hread, hok, -⟩ := h
  obtain ⟨hframe, hclosed, hdone⟩ := hs
  unfold TraceFramed
  rw [htrace, frame_append, hread _ hclosed]
  exact ⟨hframe, hclosed, List.forall_mem_append.2 ⟨hdone, hok⟩⟩

theorem ReadsCounted.transacts {s t : State} (hs : ReadsCounted s) (h : Transacts s t) : ReadsCounted t := by
  obtain ⟨evs, ts, htrace, -, -, hdraws⟩ := h
  unfold ReadsCounted at hs ⊢
  rw [htrace, List.countP_append, hdraws, hs]

/-! ### What the effects of a command keep of each slot -/

section
variable {i : Instr} {s t : State}

/-- Only reached bits are lit by any effect, so a bit that no index reaches stays 0 (R10). -/
theorem UnmappedDisplayZero.slotsAfter (hs : UnmappedDisplayZero s) (hcfg : t.cfg = s.cfg) (h : SlotsAfter i s t) :
    UnmappedDisplayZero t := by
  intro k w b hbit
  rw [hcfg]
  rcases h k with hsame | ⟨-, heff⟩
  · exact hs k w b (by rwa [hsame] at hbit)
  · generalize t.slots[k] = y at heff hbit
    cases heff with
    | bind _ => exact hs k w b hbit
    | scan r _ _ => exact hs k w b hbit
    | display d hlights => exact (hlights w b hbit).elim (hs k w b) id

/-- Only a bound slot is scanned, and no effect unbinds one (R18). -/
theorem UnboundUnscanned.slotsAfter (hs : UnboundUnscanned s) (h : SlotsAfter i s t) : UnboundUnscanned t := by
  intro k hunbound
  rcases h k with hsame | ⟨-, heff⟩
  · rw [hsame] at hunbound ⊢; exact hs k hunbound
  · generalize t.slots[k] = y at heff hunbound
    cases heff with
    | bind _ => cases hunbound
    | scan r _ hbound => rw [hbound] at hunbound; cases hunbound
    | display d _ => exact hs k hunbound

/-- Effects are on present slots only (R16). -/
theorem AbsentUntouched.slotsAfter (hs : AbsentUntouched s) (hcfg : t.cfg = s.cfg) (h : SlotsAfter i s t) :
    AbsentUntouched t := by
  intro k habsent
  rw [hcfg] at habsent
  rcases h k with hsame | ⟨hpresent, -⟩
  · rw [hsame]; exact hs k habsent
  · rw [State.present, habsent] at hpresent; cases hpresent

end

/-! ### The invariant -/

/-- Settles O44: every slot is a reset slot, and nothing was emitted, answered or read. -/
theorem initialStateMeetsTheInvariant : Obligations.InitialStateMeetsTheInvariant := by
  intro cfg hwf
  refine ⟨hwf, fun k w b hbit => ?_, fun k _ => ?_, fun k _ => State.initial_slot cfg k, ⟨rfl, rfl, by simp [frame]⟩, rfl,
    rfl⟩
  · rw [State.initial_slot] at hbit
    fin_cases w <;> simp [Slot.reset] at hbit
  · rw [State.initial_slot]
    exact ⟨rfl, rfl⟩

/-- A command presented and completed keeps the invariant: the position moves by one and one response is given. -/
theorem Inv.exec_advance {i : Instr} {s t : State} (hs : Inv s) (h : exec i s.advance = .next t) : Inv t := by
  obtain ⟨hwf, hdisp, hunbound, habsent, htrace, hresp, hreads⟩ := hs
  obtain ⟨hcfg, ⟨r, hr⟩, hpos, -⟩ := exec_keeps h
  have hslots : SlotsAfter i s.advance t := exec_slotsAfter h
  have htrans : Transacts s.advance t := exec_transacts h
  refine ⟨by rw [hcfg]; exact hwf, UnmappedDisplayZero.slotsAfter (s := s.advance) hdisp hcfg hslots,
    UnboundUnscanned.slotsAfter (s := s.advance) hunbound hslots,
    AbsentUntouched.slotsAfter (s := s.advance) habsent hcfg hslots,
    TraceFramed.transacts (s := s.advance) htrace htrans, ?_, ReadsCounted.transacts (s := s.advance) hreads htrans⟩
  have hcount : s.responses.length = s.pos := hresp
  rw [OneResponsePerCommand, hr, hpos]
  simp [hcount]

/-- Settles O45: a step waits, or completes the command presented. -/
theorem everyStepKeepsTheInvariant : Obligations.EveryStepKeepsTheInvariant := by
  intro s t hs h
  obtain ⟨-, ⟨-, rfl⟩ | ⟨w, rest, i, -, -, hexec⟩⟩ := step_next h
  · exact hs
  · exact hs.exec_advance hexec

end Sys2Proof.Machine
end

