-- ==== Sys2Proof/Proofs/Noninterference.lean ====
section
/-! PROOFS. What a command cannot observe. One relational argument serves two statements: states that agree but for the
addresses of unbound slots (R17), and states that differ in a slot the command is not addressed to (R24). -/

namespace Sys2Proof.Machine

/-! ### Slots and states that no command tells apart -/

/-- An update of a slot that takes agreeing slots to agreeing slots. -/
def KeepsAgreement (g : Slot → Slot) : Prop := ∀ {x y : Slot}, SlotsAgree x y → SlotsAgree (g x) (g y)

/-- The state after the transport has handed out its next answer (R47). -/
def State.draw (s : State) : State := { s with answers := s.answers.tail, draws := s.draws + 1 }

/-- A relation of states that no operation on the slots of `V` tells apart: related states have the same parameters and
answers to come, their slots in `V` agree, and every update the operations make takes related states to related ones. -/
structure Indistinct (V : SlotNo → Prop) (R : State → State → Prop) : Prop where
  cfg : ∀ {s t}, R s t → s.cfg = t.cfg
  answer : ∀ {s t}, R s t → s.answerAt 0 = t.answerAt 0
  slot : ∀ {s t k}, R s t → V k → SlotsAgree s.slots[k] t.slots[k]
  modify : ∀ {s t k g}, R s t → V k → KeepsAgreement g → R (s.setSlot k (g s.slots[k])) (t.setSlot k (g t.slots[k]))
  emit : ∀ {s t} evs, R s t → R (s.emit evs) (t.emit evs)
  respond : ∀ {s t} r, R s t → R (s.respond r) (t.respond r)
  draw : ∀ {s t}, R s t → R s.draw t.draw

/-- Two results with the same value, or faults at the same slot, and related states. -/
inductive ResultsRelated {α : Type} (R : State → State → Prop) : Except Fault (α × State) → Except Fault (α × State) → Prop
  | ok {s t : State} (a : α) (h : R s t) : ResultsRelated R (.ok (a, s)) (.ok (a, t))
  | fault {s t : State} (k : SlotNo) (h : R s t) :
      ResultsRelated R (.error (.unboundAddress k s)) (.error (.unboundAddress k t))

/-- Two next states, or two faults at the same slot, with related states. -/
inductive OutcomesRelated (R : State → State → Prop) :
    Host.Outcome State Fault Refusal → Host.Outcome State Fault Refusal → Prop
  | next {s t : State} (h : R s t) : OutcomesRelated R (.next s) (.next t)
  | fault {s t : State} (k : SlotNo) (h : R s t) :
      OutcomesRelated R (.fault (.unboundAddress k s)) (.fault (.unboundAddress k t))

/-- In related states `f` on slot `k` has related results. -/
def Respects (R : State → State → Prop) (k : SlotNo) (f : SlotNo → State → SlotResult) : Prop :=
  ∀ {s t : State}, R s t → ResultsRelated R (f k s) (f k t)

theorem keepsAgreement_bind (a : BusAddr) : KeepsAgreement fun x => { x with addr := a, bound := true } :=
  fun ⟨hdisp, hcur, hprev, _, _⟩ => ⟨hdisp, hcur, hprev, rfl, fun _ => rfl⟩

theorem keepsAgreement_scan (r : KeyBytes) : KeepsAgreement fun x => { x with keyPrev := x.keyCur, keyCur := r } :=
  fun ⟨hdisp, hcur, _, hbound, haddr⟩ => ⟨hdisp, rfl, hcur, hbound, haddr⟩

theorem keepsAgreement_disp (f : DispBuf → DispBuf) : KeepsAgreement fun x => { x with disp := f x.disp } :=
  fun ⟨hdisp, hcur, hprev, hbound, haddr⟩ => ⟨congrArg f hdisp, hcur, hprev, hbound, haddr⟩

/-- A scan as updates of one slot, the trace and the answers (R101). -/
theorem State.scanned_eq (s : State) (k : SlotNo) :
    s.scanned k =
      ((s.setSlot k { s.slots[k] with keyPrev := s.slots[k].keyCur, keyCur := s.answerAt 0 }).emit
        [.tb s.slots[k].addr, .tw keyScanByte, .te, .tr s.slots[k].addr 6 (s.answerAt 0)]).draw := rfl

namespace Indistinct

variable {V : SlotNo → Prop} {R : State → State → Prop} {k : SlotNo} {s t : State}

/-! ### The per-slot operations -/

/-- An operation that faults on an unbound slot, and on a bound one answers alike in related states with the same
address. -/
theorem respects_of_bound (hR : Indistinct V R) (hk : V k) {f : SlotNo → State → SlotResult}
    (hunbound : ∀ {s : State}, s.slots[k].bound = false → f k s = .error (.unboundAddress k s))
    (hbound : ∀ {s t : State}, R s t → s.slots[k].bound = true → t.slots[k].bound = true →
      s.slots[k].addr = t.slots[k].addr → ResultsRelated R (f k s) (f k t)) : Respects R k f := by
  intro s t h
  obtain ⟨-, -, -, hb, haddr⟩ := hR.slot h hk
  cases hs : s.slots[k].bound with
  | true => exact hbound h hs (hb ▸ hs) (haddr hs)
  | false => rw [hunbound hs, hunbound (hb ▸ hs)]; exact .fault k h

theorem respects_init (hR : Indistinct V R) (hk : V k) (addr brightness : Byte) :
    Respects R k (initSlot addr brightness) := by
  intro s t h
  rw [initSlot_eq, initSlot_eq]
  exact .ok 0 (hR.emit _ (hR.modify h hk (keepsAgreement_bind _)))

theorem respects_bright (hR : Indistinct V R) (hk : V k) (level : Byte) : Respects R k (brightSlot level) := by
  refine hR.respects_of_bound hk (brightSlot_of_unbound level) fun h hs ht haddr => ?_
  rw [brightSlot_of_bound level hs, brightSlot_of_bound level ht, haddr]
  exact .ok 0 (hR.emit _ h)

theorem respects_blink (hR : Indistinct V R) (hk : V k) (rate : Byte) : Respects R k (blinkSlot rate) := by
  refine hR.respects_of_bound hk (blinkSlot_of_unbound rate) fun h hs ht haddr => ?_
  rw [blinkSlot_of_bound rate hs, blinkSlot_of_bound rate ht, haddr]
  exact .ok 0 (hR.emit _ h)

theorem respects_flush (hR : Indistinct V R) (hk : V k) : Respects R k flushSlot := by
  refine hR.respects_of_bound hk flushSlot_of_unbound fun h hs ht haddr => ?_
  obtain ⟨hdisp, -⟩ := hR.slot h hk
  rw [flushSlot_of_bound hs, flushSlot_of_bound ht, haddr, hdisp]
  exact .ok 0 (hR.emit _ h)

theorem respects_scan (hR : Indistinct V R) (hk : V k) : Respects R k scanSlot := by
  refine hR.respects_of_bound hk scanSlot_of_unbound fun h hs ht haddr => ?_
  obtain ⟨-, hcur, -⟩ := hR.slot h hk
  rw [scanSlot_of_bound hs, scanSlot_of_bound ht, hcur, State.scanned_eq, State.scanned_eq, haddr, hR.answer h]
  exact .ok _ (hR.draw (hR.emit _ (hR.modify h hk (keepsAgreement_scan _))))

theorem respects_setLed (hR : Indistinct V R) (hk : V k) (l : LocalIdx) : Respects R k (setLedSlot l) := by
  intro s t h
  rw [setLedSlot, setLedSlot, hR.cfg h]
  exact .ok 0 (hR.modify h hk (keepsAgreement_disp fun d => d.setIfInBounds _ (d[_]?.getD 0 ||| _)))

theorem respects_clrLed (hR : Indistinct V R) (hk : V k) (l : LocalIdx) : Respects R k (clrLedSlot l) := by
  intro s t h
  rw [clrLedSlot, clrLedSlot, hR.cfg h]
  exact .ok 0 (hR.modify h hk (keepsAgreement_disp fun d => d.setIfInBounds _ (d[_]?.getD 0 &&& _)))

theorem respects_clear (hR : Indistinct V R) (hk : V k) : Respects R k clearSlot :=
  fun h => .ok 0 (hR.modify h hk (keepsAgreement_disp fun _ => #v[0, 0, 0, 0, 0, 0, 0, 0]))

/-- A query whose answer is the same in related states. -/
theorem respects_query {f : SlotNo → State → SlotResult} {answer : State → Resp} (hf : ∀ s, f k s = .ok (answer s, s))
    (hanswer : ∀ {s t}, R s t → answer s = answer t) : Respects R k f := by
  intro s t h
  rw [hf, hf, hanswer h]
  exact .ok _ h

theorem curBit_eq (hR : Indistinct V R) (hk : V k) (l : LocalIdx) (h : R s t) : curBit l k s = curBit l k t := by
  obtain ⟨-, hcur, -⟩ := hR.slot h hk
  rw [curBit, curBit, hcur, hR.cfg h]

theorem prevBit_eq (hR : Indistinct V R) (hk : V k) (l : LocalIdx) (h : R s t) : prevBit l k s = prevBit l k t := by
  obtain ⟨-, -, hprev, -⟩ := hR.slot h hk
  rw [prevBit, prevBit, hprev, hR.cfg h]

theorem respects_isLed (hR : Indistinct V R) (hk : V k) (l : LocalIdx) : Respects R k (isLedSlot l) := by
  refine respects_query (fun _ => rfl) fun {s t} h => ?_
  obtain ⟨hdisp, -⟩ := hR.slot h hk
  rw [hdisp, hR.cfg h]

theorem respects_isPressed (hR : Indistinct V R) (hk : V k) (l : LocalIdx) : Respects R k (isPressedSlot l) :=
  respects_query (fun _ => rfl) fun h => by rw [hR.curBit_eq hk l h]

theorem respects_wasPressed (hR : Indistinct V R) (hk : V k) (l : LocalIdx) : Respects R k (wasPressedSlot l) :=
  respects_query (fun _ => rfl) fun h => by rw [hR.prevBit_eq hk l h]

theorem respects_justPressed (hR : Indistinct V R) (hk : V k) (l : LocalIdx) : Respects R k (justPressedSlot l) :=
  respects_query (fun _ => rfl) fun h => by rw [hR.curBit_eq hk l h, hR.prevBit_eq hk l h]

theorem respects_justReleased (hR : Indistinct V R) (hk : V k) (l : LocalIdx) : Respects R k (justReleasedSlot l) :=
  respects_query (fun _ => rfl) fun h => by rw [hR.curBit_eq hk l h, hR.prevBit_eq hk l h]

theorem respects_atLocal {f : LocalIdx → SlotNo → State → SlotResult} (hf : ∀ l, Respects R k (f l)) (b : Byte) :
    Respects R k (atLocal b f) := by
  intro s t h
  cases hb : localOperand b with
  | some l => rw [atLocal_of_some hb, atLocal_of_some hb]; exact hf l h
  | none => rw [atLocal_of_none hb, atLocal_of_none hb]; exact .ok 0 h

/-! ### The delegation schemes -/

theorem present_eq (hR : Indistinct V R) (h : R s t) (k : SlotNo) : s.present k = t.present k := by
  rw [State.present, State.present, hR.cfg h]

theorem absorb_related (hR : Indistinct V R) (r : Resp) (h : R s t) : OutcomesRelated R (absorb r s) (absorb r t) :=
  .next (hR.respond r h)

theorem finish_related (hR : Indistinct V R) {p q : SlotResult} (h : ResultsRelated R p q) :
    OutcomesRelated R (finish p) (finish q) := by
  cases h with
  | ok r h => exact .next (hR.respond r h)
  | fault k h => exact .fault k h

theorem perSlot_related (hR : Indistinct V R) {a : Byte} {f : SlotNo → State → SlotResult}
    (hf : ∀ k : SlotNo, a.toNat = k.val → Respects R k f) (h : R s t) :
    OutcomesRelated R (perSlot a f s) (perSlot a f t) := by
  have hlive : liveSlot s a = liveSlot t a := by simp only [liveSlot, hR.present_eq h]
  cases hl : liveSlot t a with
  | some k =>
    rw [perSlot_of_live (hlive.trans hl), perSlot_of_live hl]
    exact hR.finish_related (hf k (liveSlot_eq_some.1 hl).1 h)
  | none =>
    rw [perSlot_of_dead (hlive.trans hl), perSlot_of_dead hl]
    exact hR.absorb_related 0 h

theorem route_related (hR : Indistinct V R) {b : Byte} {f : LocalIdx → SlotNo → State → SlotResult}
    (hf : ∀ (l : LocalIdx) (k : SlotNo), b.toNat / 16 = k.val → Respects R k (f l)) (h : R s t) :
    OutcomesRelated R (route b f s) (route b f t) := by
  cases hb : flatOperand b with
  | none => rw [route_of_none hb, route_of_none hb]; exact hR.absorb_related 0 h
  | some n =>
    have hslot : b.toNat / 16 = (flatSlot n).val := by rw [flatOperand_eq_some.1 hb]; rfl
    rw [route_of_some hb, route_of_some hb, hR.present_eq h]
    split
    · exact hR.finish_related (hf _ _ hslot h)
    · exact hR.absorb_related 0 h

theorem visit_related (hR : Indistinct V R) {f : SlotNo → State → SlotResult} (hf : ∀ k, Respects R k f) {S : SlotSet}
    (ks : List SlotNo) : ∀ {any : Bool} {s t : State}, R s t →
      ResultsRelated R (visit S f ks any s) (visit S f ks any t) := by
  induction ks with
  | nil => intro any s t h; exact .ok any h
  | cons k ks ih =>
    intro any s t h
    rw [visit, visit, hR.present_eq h]
    split
    · have hfk := hf k h
      generalize f k s = p at hfk
      generalize f k t = q at hfk
      cases hfk with
      | ok r hr => exact ih hr
      | fault j hr => exact .fault j hr
    · exact ih h

theorem broadcast_related (hR : Indistinct V R) {f : SlotNo → State → SlotResult} (hf : ∀ k, Respects R k f) (h : R s t) :
    OutcomesRelated R (broadcast f s) (broadcast f t) := by
  have hvisit := hR.visit_related hf (S := SlotSet.all) slotOrder (any := false) h
  unfold broadcast
  generalize visit SlotSet.all f slotOrder false s = p at hvisit
  generalize visit SlotSet.all f slotOrder false t = q at hvisit
  cases hvisit with
  | ok any hu => exact hR.absorb_related 0 hu
  | fault k hu => exact .fault k hu

theorem scanSet_related (hR : Indistinct V R) {f : SlotNo → State → SlotResult} (hf : ∀ k, Respects R k f) (S : SlotSet)
    (h : R s t) : OutcomesRelated R (scanSet S f s) (scanSet S f t) := by
  have hvisit := hR.visit_related hf (S := S) slotOrder (any := false) h
  unfold scanSet
  generalize visit S f slotOrder false s = p at hvisit
  generalize visit S f slotOrder false t = q at hvisit
  cases hvisit with
  | ok any hu => exact hR.absorb_related _ hu
  | fault k hu => exact .fault k hu

/-! ### `exec` -/

/-- A command whose slots are all in `V`, its one slot or every slot, has related outcomes in related states. -/
theorem exec_related (hR : Indistinct V R) {i : Instr}
    (hV : ∀ k : SlotNo, (∀ n, i.addressed = some n → n = k.val) → V k) (h : R s t) :
    OutcomesRelated R (exec i s) (exec i t) := by
  have hall : i.addressed = none → ∀ k, V k := fun hi k => hV k fun n hn => by rw [hi] at hn; cases hn
  have hone : ∀ {n} {k : SlotNo}, i.addressed = some n → n = k.val → V k := fun hi hk =>
    hV _ fun m hm => by rw [hi] at hm; cases hm; exact hk
  cases i with
  | dInit a b c => exact hR.perSlot_related (fun k hk => hR.respects_init (hone rfl hk) b c) h
  | dBright a b => exact hR.perSlot_related (fun k hk => hR.respects_bright (hone rfl hk) b) h
  | dBlink a b => exact hR.perSlot_related (fun k hk => hR.respects_blink (hone rfl hk) b) h
  | dFlush a => exact hR.perSlot_related (fun k hk => hR.respects_flush (hone rfl hk)) h
  | dClear a => exact hR.perSlot_related (fun k hk => hR.respects_clear (hone rfl hk)) h
  | dScan a => exact hR.perSlot_related (fun k hk => hR.respects_scan (hone rfl hk)) h
  | dIsLed a b => exact hR.perSlot_related (fun k hk => respects_atLocal (hR.respects_isLed (hone rfl hk)) b) h
  | dSetLed a b => exact hR.perSlot_related (fun k hk => respects_atLocal (hR.respects_setLed (hone rfl hk)) b) h
  | dClrLed a b => exact hR.perSlot_related (fun k hk => respects_atLocal (hR.respects_clrLed (hone rfl hk)) b) h
  | dIsPressed a b => exact hR.perSlot_related (fun k hk => respects_atLocal (hR.respects_isPressed (hone rfl hk)) b) h
  | dWasPressed a b => exact hR.perSlot_related (fun k hk => respects_atLocal (hR.respects_wasPressed (hone rfl hk)) b) h
  | dJustPressed a b =>
    exact hR.perSlot_related (fun k hk => respects_atLocal (hR.respects_justPressed (hone rfl hk)) b) h
  | dJustReleased a b =>
    exact hR.perSlot_related (fun k hk => respects_atLocal (hR.respects_justReleased (hone rfl hk)) b) h
  | gBright b => exact hR.broadcast_related (fun k => hR.respects_bright (hall rfl k) b) h
  | gBlink b => exact hR.broadcast_related (fun k => hR.respects_blink (hall rfl k) b) h
  | gFlush => exact hR.broadcast_related (fun k => hR.respects_flush (hall rfl k)) h
  | gClear => exact hR.broadcast_related (fun k => hR.respects_clear (hall rfl k)) h
  | gScan => exact hR.scanSet_related (fun k => hR.respects_scan (hall rfl k)) _ h
  | gScanP =>
    rw [exec, exec, execGScanP, execGScanP, hR.cfg h]
    exact hR.scanSet_related (fun k => hR.respects_scan (hall rfl k)) _ h
  | gScanS =>
    rw [exec, exec, execGScanS, execGScanS, hR.cfg h]
    exact hR.scanSet_related (fun k => hR.respects_scan (hall rfl k)) _ h
  | gIsLed b => exact hR.route_related (fun l k hk => hR.respects_isLed (hone rfl hk) l) h
  | gSetLed b => exact hR.route_related (fun l k hk => hR.respects_setLed (hone rfl hk) l) h
  | gClrLed b => exact hR.route_related (fun l k hk => hR.respects_clrLed (hone rfl hk) l) h
  | gIsPressed b => exact hR.route_related (fun l k hk => hR.respects_isPressed (hone rfl hk) l) h
  | gWasPressed b => exact hR.route_related (fun l k hk => hR.respects_wasPressed (hone rfl hk) l) h
  | gJustPressed b => exact hR.route_related (fun l k hk => hR.respects_justPressed (hone rfl hk) l) h
  | gJustReleased b => exact hR.route_related (fun l k hk => hR.respects_justReleased (hone rfl hk) l) h
  | xy2i b c => rw [exec, exec, execXy2i, execXy2i, hR.cfg h]; exact hR.absorb_related _ h
  | i2xy b => rw [exec, exec, execI2xy, execI2xy, hR.cfg h]; exact hR.absorb_related _ h

end Indistinct

/-! ### Addresses of unbound slots (R17) -/

theorem Agree.setSlot {s t : State} (h : Agree s t) (k : SlotNo) {x y : Slot} (hxy : SlotsAgree x y) :
    Agree (s.setSlot k x) (t.setSlot k y) := by
  obtain ⟨hslots, hrest⟩ := h
  refine ⟨fun j => ?_, hrest⟩
  by_cases hj : j = k
  · subst hj
    rw [State.setSlot_same, State.setSlot_same]; exact hxy
  · rw [State.setSlot_other s x hj, State.setSlot_other t y hj]; exact hslots j

/-- Agreement is not told apart by an operation on any slot. -/
theorem indistinct_agree : Indistinct (fun _ => True) Agree where
  cfg := fun ⟨_, hcfg, _⟩ => hcfg
  answer := fun ⟨_, _, _, _, _, _, hanswers, hdraws⟩ => by simp only [State.answerAt, hanswers, hdraws]
  slot := fun ⟨hslots, _⟩ _ => hslots _
  modify := fun h _ hg => h.setSlot _ (hg (h.1 _))
  emit := fun evs ⟨hslots, hcfg, htrace, hrest⟩ => ⟨hslots, hcfg, congrArg (· ++ evs) htrace, hrest⟩
  respond := fun r ⟨hslots, hcfg, htrace, hresp, hrest⟩ => ⟨hslots, hcfg, htrace, congrArg (· ++ [r]) hresp, hrest⟩
  draw := fun ⟨hslots, hcfg, htrace, hresp, hpend, hpos, hanswers, hdraws⟩ =>
    ⟨hslots, hcfg, htrace, hresp, hpend, hpos, congrArg List.tail hanswers, congrArg (· + 1) hdraws⟩

theorem OutcomesRelated.agree {o p : Host.Outcome State Fault Refusal} (h : OutcomesRelated Agree o p) :
    OutcomesAgree o p := by
  cases h with
  | next h => exact h
  | fault k h => exact ⟨rfl, h⟩

/-- Settles O48: an address is read only where the slot is bound. -/
theorem unboundAddressIsNeverObserved : Obligations.UnboundAddressIsNeverObserved :=
  fun _ _ _ h => (indistinct_agree.exec_related (fun _ _ => trivial) h).agree

/-! ### The other slots (R24) -/

/-- `t` is `s` with the state of slot `j` replaced by `sl`. -/
def Replaced (j : SlotNo) (sl : Slot) (s t : State) : Prop := t = withSlot j sl s

theorem withSlot_slots_other {j k : SlotNo} (sl : Slot) (s : State) (h : k ≠ j) : (withSlot j sl s).slots[k] = s.slots[k] :=
  State.setSlot_other s sl h

theorem withSlot_setSlot_comm {j k : SlotNo} (sl x : Slot) (s : State) (h : k ≠ j) :
    (withSlot j sl s).setSlot k x = withSlot j sl (s.setSlot k x) := by
  have hval : (j : Nat) ≠ k := fun e => h (Fin.ext e.symm)
  simp [withSlot, State.setSlot, Vector.set_comm _ _ hval]

theorem slotsAgree_refl (x : Slot) : SlotsAgree x x := ⟨rfl, rfl, rfl, rfl, fun _ => rfl⟩

/-- The state of slot `j` is not told by an operation on any other slot. -/
theorem indistinct_replaced (j : SlotNo) (sl : Slot) : Indistinct (· ≠ j) (Replaced j sl) where
  cfg := fun h => by rw [h]; rfl
  answer := fun h => by rw [h]; rfl
  slot := fun {s t k} h hk => by rw [h, withSlot_slots_other sl s hk]; exact slotsAgree_refl _
  modify := fun {s t k g} h hk _ => by rw [h, Replaced, withSlot_slots_other sl s hk, withSlot_setSlot_comm sl _ s hk]
  emit := fun _ h => by rw [h]; rfl
  respond := fun _ h => by rw [h]; rfl
  draw := fun h => by rw [h]; rfl

theorem OutcomesRelated.onState {j : SlotNo} {sl : Slot} {o p : Host.Outcome State Fault Refusal}
    (h : OutcomesRelated (Replaced j sl) o p) : p = onState (withSlot j sl) o := by
  cases h with
  | next h => rw [h]; rfl
  | fault k h => rw [h]; rfl

/-- Settles O49: replacing slot `j` is not told by an operation on another slot, and the command is addressed to one. -/
theorem aCommandTouchesNoOtherSlot : Obligations.ACommandTouchesNoOtherSlot := by
  intro i n j sl s hi hj
  refine ((indistinct_replaced j sl).exec_related (fun k hk hkj => ?_) (s := s) rfl).onState
  exact hj (by rw [hk n hi, hkj])

end Sys2Proof.Machine
end

