-- ==== Sys2Proof/Proofs/ResetAndStep.lean ====
section
/-! PROOFS. What the reset state holds and answers, and what the step runs. -/

namespace Sys2Proof.Machine

/-- Settles O6: under a well-formed configuration the command interface finds the command at the head of the list. -/
theorem stepRunsThePresentedCommand : Obligations.StepRunsThePresentedCommand := by
  intro s w rest i hwf hpending hdecode
  have hadvance : s.advance = { s with pending := rest, pos := s.pos + 1 } := by
    rw [State.advance, hpending, List.tail_cons]
  unfold step
  rw [fetch_of_wellFormed hwf, hpending]
  simp only [offered_of_ok hdecode, hadvance]

/-- Settles O42: every slot of the reset state is a reset slot. -/
theorem resetLeavesBuffersZeroAndNothingBound : Obligations.ResetLeavesBuffersZeroAndNothingBound := by
  intro cfg k
  rw [State.initial_slot]
  refine ⟨rfl, rfl, fun w => ?_, fun b => ?_, rfl⟩
  · fin_cases w <;> rfl
  · fin_cases b <;> exact ⟨rfl, rfl⟩

/-! ### Queries that answer 0 -/

/-- A per-slot command that answers 0 and leaves the state alone on every slot does so for every operand. -/
theorem perSlot_of_zero {f : SlotNo → State → SlotResult} {s : State} (hf : ∀ k, f k s = .ok (0, s)) (a : Byte) :
    perSlot a f s = .next (s.respond 0) := by
  cases hl : liveSlot s a with
  | some k => rw [perSlot_of_live hl, hf]; rfl
  | none => exact perSlot_of_dead hl f

theorem perSlot_atLocal_of_zero {f : LocalIdx → SlotNo → State → SlotResult} {s : State}
    (hf : ∀ l k, f l k s = .ok (0, s)) (a b : Byte) : perSlot a (atLocal b f) s = .next (s.respond 0) := by
  refine perSlot_of_zero (fun k => ?_) a
  cases hb : localOperand b with
  | some l => rw [atLocal_of_some hb, hf]
  | none => rw [atLocal_of_none hb]

theorem route_of_zero {f : LocalIdx → SlotNo → State → SlotResult} {s : State} (hf : ∀ l k, f l k s = .ok (0, s))
    (b : Byte) : route b f s = .next (s.respond 0) := by
  cases hb : flatOperand b with
  | none => rw [route_of_none hb]; rfl
  | some n =>
    rw [route_of_some hb, hf]
    split <;> rfl

/-! ### What is read after reset (R17, R18) -/

theorem testDisp_reset (p : Nat × Nat) : testDisp Slot.reset.disp p = false := by
  have hzero : Slot.reset.disp = Vector.replicate 8 0 := rfl
  rw [testDisp, hzero, Vector.getElem?_replicate]
  split <;> simp

theorem testKey_reset (p : Nat × Nat) : testKey #v[0, 0, 0, 0, 0, 0] p = false := by
  have hzero : (#v[0, 0, 0, 0, 0, 0] : KeyBytes) = Vector.replicate 6 0 := rfl
  rw [testKey, hzero, Vector.getElem?_replicate]
  split <;> simp

theorem curBit_initial (cfg : Config) (l : LocalIdx) (k : SlotNo) : curBit l k (State.initial cfg) = false := by
  rw [curBit, State.initial_slot]; exact testKey_reset _

theorem prevBit_initial (cfg : Config) (l : LocalIdx) (k : SlotNo) : prevBit l k (State.initial cfg) = false := by
  rw [prevBit, State.initial_slot]; exact testKey_reset _

section
variable (cfg : Config) (l : LocalIdx) (k : SlotNo)

theorem isLedSlot_initial : isLedSlot l k (State.initial cfg) = .ok (0, State.initial cfg) := by
  rw [isLedSlot, State.initial_slot, testDisp_reset]; rfl

theorem isPressedSlot_initial : isPressedSlot l k (State.initial cfg) = .ok (0, State.initial cfg) := by
  rw [isPressedSlot, curBit_initial]; rfl

theorem wasPressedSlot_initial : wasPressedSlot l k (State.initial cfg) = .ok (0, State.initial cfg) := by
  rw [wasPressedSlot, prevBit_initial]; rfl

theorem justPressedSlot_initial : justPressedSlot l k (State.initial cfg) = .ok (0, State.initial cfg) := by
  rw [justPressedSlot, curBit_initial, prevBit_initial]; rfl

theorem justReleasedSlot_initial : justReleasedSlot l k (State.initial cfg) = .ok (0, State.initial cfg) := by
  rw [justReleasedSlot, curBit_initial, prevBit_initial]; rfl

end

/-- Settles O43: each query answers 0 on every slot of the reset state, and a command without a slot is absorbed. -/
theorem afterResetNothingIsLitOrPressed : Obligations.AfterResetNothingIsLitOrPressed := fun cfg a b =>
  ⟨perSlot_atLocal_of_zero (isLedSlot_initial cfg) a b, perSlot_atLocal_of_zero (isPressedSlot_initial cfg) a b,
    perSlot_atLocal_of_zero (wasPressedSlot_initial cfg) a b, perSlot_atLocal_of_zero (justPressedSlot_initial cfg) a b,
    perSlot_atLocal_of_zero (justReleasedSlot_initial cfg) a b, route_of_zero (isLedSlot_initial cfg) b,
    route_of_zero (isPressedSlot_initial cfg) b, route_of_zero (wasPressedSlot_initial cfg) b,
    route_of_zero (justPressedSlot_initial cfg) b, route_of_zero (justReleasedSlot_initial cfg) b⟩

end Sys2Proof.Machine
end

