-- ==== Sys2Proof/Proofs/Flush.lean ====
section
/-! PROOFS. One flush: the bytes it sends are what the shift register of R55 gives, and the chip at its address shows
them. -/

namespace Sys2Proof.Machine

/-- `D_FLUSH` on a bound present slot sends the register byte and the data bytes in one transaction (R94). -/
theorem exec_dFlush_of_bound {s : State} {k : SlotNo} (hp : s.cfg.present[k] = true) (hb : s.slots[k].bound = true) :
    exec (.dFlush (slotByte k)) s =
      .next ((s.emit (writeEvents s.slots[k].addr (displayByte :: dataBytes s.slots[k].disp))).respond 0) := by
  rw [exec, execDFlush, perSlot_of_live (liveSlot_slotByte hp), flushSlot_of_bound hb, finish]

/-! ### The shift register (R55) -/

/-- Two bytes shifted out are the low word, low byte first (R45). -/
theorem shiftOut_add_two (n : Nat) (sr : BitVec 128) :
    shiftOut (n + 2) sr = wordBytes (sr.extractLsb' 0 16) ++ shiftOut n (sr >>> 16) := by
  have hlow : sr.extractLsb' 0 8 = (sr.extractLsb' 0 16).extractLsb' 0 8 := by ext b hb; simp
  have hhigh : (sr >>> 8).extractLsb' 0 8 = (sr.extractLsb' 0 16).extractLsb' 8 8 := by ext b hb; simp
  have hrest : sr >>> 8 >>> 8 = sr >>> 16 := (BitVec.shiftRight_add sr 8 8).symm
  rw [shiftOut, shiftOut, hlow, hhigh, hrest]
  rfl

/-- The bytes of `n` words shifted out are those of the register's `n` low words, word 0 first. -/
theorem shiftOut_two_mul (n : Nat) (sr : BitVec 128) :
    shiftOut (2 * n) sr = (List.range n).flatMap fun w => wordBytes (sr.extractLsb' (16 * w) 16) := by
  induction n generalizing sr with
  | zero => rfl
  | succ n ih =>
    have hword : ∀ w, (sr >>> 16).extractLsb' (16 * w) 16 = sr.extractLsb' (16 * (w + 1)) 16 := by
      intro w
      ext b hb
      simp only [BitVec.getElem_extractLsb', BitVec.getLsbD_ushiftRight]
      congr 1; omega
    rw [Nat.mul_succ, shiftOut_add_two, ih, List.range_succ_eq_map, List.flatMap_cons, List.flatMap_map]
    simp only [hword, Nat.mul_zero]

/-- Word `w` of the register is word `w` of the buffer: the `w` words below it are 16 bits each. -/
theorem shiftRegister_word (d : DispBuf) (w : Fin 8) : (shiftRegister d).extractLsb' (16 * w.val) 16 = d[w] := by
  ext b hb
  have happend : (shiftRegister d).getLsbD (16 * w.val + b) =
      (d[7] ++ d[6] ++ d[5] ++ d[4] ++ d[3] ++ d[2] ++ d[1] ++ d[0]).getLsbD (16 * w.val + b) := rfl
  rw [BitVec.getElem_extractLsb', ← BitVec.getLsbD_eq_getElem, happend]
  simp only [BitVec.getLsbD_append]
  fin_cases w <;> grind

/-- The register shifts out the data bytes of a flush. -/
theorem shiftOut_shiftRegister (d : DispBuf) : shiftOut 16 (shiftRegister d) = dataBytes d := by
  have hwords : d.toList = (List.range 8).map fun w => (shiftRegister d).extractLsb' (16 * w) 16 := by
    refine List.ext_getElem (by simp) fun w hw _ => ?_
    simp only [List.getElem_map, List.getElem_range, Vector.getElem_toList]
    exact (shiftRegister_word d ⟨w, by simpa using hw⟩).symm
  rw [dataBytes, hwords, List.flatMap_map]
  exact shiftOut_two_mul 8 _

/-- Settles O21: the data bytes of the transaction are what the register shifts out. -/
theorem flushShiftsOutTheBuffer : Obligations.FlushShiftsOutTheBuffer := by
  intro s k hp hb
  refine ⟨_, exec_dFlush_of_bound hp hb, rfl, ?_⟩
  rw [shiftOut_shiftRegister]
  rfl

/-! ### The chip at the address (R22, R50) -/

/-- A display write sets the display memory and no setting (R44). -/
theorem ChipView.write_dataBytes (v : ChipView) (d : DispBuf) :
    v.write (displayByte :: dataBytes d) = { v with display := some (dataBytes d) } := by
  have hlen := dataBytes_length d
  cases hdata : dataBytes d with
  | nil => rw [hdata] at hlen; cases hlen
  | cons b bs => simp only [ChipView.write, if_true]

/-- Settles O52: the trace grows by one display write, which the chip at its address alone takes. -/
theorem flushMakesTheChipShowTheBuffer : Obligations.FlushMakesTheChipShowTheBuffer := by
  intro s k hp hb ⟨_, hclosed, _⟩
  have hview := fun a => chipView_append hclosed
    (readsAs_write s.slots[k].addr (displayByte :: dataBytes s.slots[k].disp)) a
  refine ⟨_, exec_dFlush_of_bound hp hb, (hview _).trans ?_, fun a ha => (hview a).trans ?_⟩
  · rw [flushBytes_eq, List.tail_cons, ← ChipView.write_dataBytes]
    exact if_pos rfl
  · exact if_neg ha.symm

end Sys2Proof.Machine
end

