-- ==== Sys2Proof/Proofs/TransportEffects.lean ====
section
/-! PROOFS. What a completed command does on the transport, said once per command: nothing; or it flushes a slot it
reaches; or it sends what leaves the display memory of every chip alone. -/

namespace Sys2Proof.Machine

/-! ### Three relations of the state before and the state after -/

/-- Nothing was emitted and no answer consumed. -/
def Silent (s t : State) : Prop := t.trace = s.trace ∧ t.answers = s.answers ∧ t.draws = s.draws

/-- A trace that ended outside a transaction still does, and shows the same display memory of every chip (R50). -/
def LeavesDisplays (s t : State) : Prop :=
  (frame s.trace).opened = none →
    (frame t.trace).opened = none ∧ ∀ a, (chipView a t.trace).display = (chipView a s.trace).display

/-- A relation that holds where nothing is emitted and follows a command from action to action. -/
structure TransportRelation (P : State → State → Prop) : Prop where
  of_silent : ∀ {s t}, Silent s t → P s t
  trans : ∀ {s t u}, P s t → P t u → P s u

theorem silent_refl (s : State) : Silent s s := ⟨rfl, rfl, rfl⟩

theorem silent_respond (s : State) (r : Resp) : Silent s (s.respond r) := ⟨rfl, rfl, rfl⟩

theorem transportRelation_silent : TransportRelation Silent where
  of_silent := id
  trans := fun ⟨htrace, hanswers, hdraws⟩ ⟨htrace', hanswers', hdraws'⟩ =>
    ⟨htrace'.trans htrace, hanswers'.trans hanswers, hdraws'.trans hdraws⟩

theorem transportRelation_leavesDisplays : TransportRelation LeavesDisplays where
  of_silent := fun ⟨htrace, _⟩ hclosed => by rw [htrace]; exact ⟨hclosed, fun _ => rfl⟩
  trans := fun hst htu hclosed => by
    obtain ⟨hclosed', hdisplay⟩ := hst hclosed
    obtain ⟨hclosed'', hdisplay'⟩ := htu hclosed'
    exact ⟨hclosed'', fun a => (hdisplay' a).trans (hdisplay a)⟩

/-! ### What leaves a display alone (R44) -/

/-- A transaction that leaves the display memory of every chip alone. -/
def Transaction.SparesDisplay (x : Transaction) : Prop :=
  ∀ (a : BusAddr) (v : ChipView), (ChipView.apply a v x).display = v.display

/-- A write of one byte sets settings, no display memory: that takes the register byte and data. -/
theorem sparesDisplay_write (b : BusAddr) (c : Byte) : (Transaction.write b [c]).SparesDisplay := by
  intro a v
  simp only [ChipView.apply, ChipView.write]
  split_ifs <;> rfl

theorem sparesDisplay_read (b : BusAddr) (n : Nat) (r : KeyBytes) : (Transaction.read b n r).SparesDisplay :=
  fun _ _ => rfl

theorem display_foldl {ts : List Transaction} (h : ∀ x ∈ ts, x.SparesDisplay) (a : BusAddr) (v : ChipView) :
    (ts.foldl (ChipView.apply a) v).display = v.display := by
  induction ts generalizing v with
  | nil => rfl
  | cons x ts ih =>
    obtain ⟨hx, hts⟩ := List.forall_mem_cons.1 h
    rw [List.foldl_cons, ih hts, hx]

theorem leavesDisplays_of_readsAs {s t : State} {evs : List Event} {ts : List Transaction}
    (htrace : t.trace = s.trace ++ evs) (hreads : ReadsAs evs ts) (hspares : ∀ x ∈ ts, x.SparesDisplay) :
    LeavesDisplays s t := by
  intro hclosed
  rw [htrace]
  refine ⟨by rw [frame_append, hreads _ hclosed]; exact hclosed, fun a => ?_⟩
  rw [chipView_append hclosed hreads, display_foldl hspares]

theorem leavesDisplays_cmdEvents {s t : State} {a : BusAddr} {vs : List Byte}
    (htrace : t.trace = s.trace ++ cmdEvents a vs) : LeavesDisplays s t :=
  leavesDisplays_of_readsAs htrace (readsAs_cmd a vs) (by simp [sparesDisplay_write])

/-! ### The per-slot operations -/

/-- When `f` completes on a slot, it relates the state before and the state after by `P`. -/
def Relates (P : State → State → Prop) (f : SlotNo → State → SlotResult) : Prop :=
  ∀ (k : SlotNo) (s t : State) (c : Resp), f k s = .ok (c, t) → P s t

theorem leavesDisplays_init (addr brightness : Byte) : Relates LeavesDisplays (initSlot addr brightness) := by
  intro k s t c h
  rw [initSlot_eq] at h
  cases h; exact leavesDisplays_cmdEvents rfl

theorem leavesDisplays_sendBytes {v : Byte} {vs : List Byte} : Relates LeavesDisplays (sendBytes (v :: vs)) := by
  intro k s t c h
  cases hb : s.slots[k].bound with
  | true => rw [sendBytes_of_bound _ hb] at h; cases h; exact leavesDisplays_cmdEvents rfl
  | false => rw [sendBytes_of_unbound _ _ hb] at h; cases h

theorem leavesDisplays_bright (level : Byte) : Relates LeavesDisplays (brightSlot level) := leavesDisplays_sendBytes

theorem leavesDisplays_blink (rate : Byte) : Relates LeavesDisplays (blinkSlot rate) := leavesDisplays_sendBytes

theorem leavesDisplays_scan : Relates LeavesDisplays scanSlot := by
  intro k s t c h
  cases hb : s.slots[k].bound with
  | true =>
    rw [scanSlot_of_bound hb] at h
    cases h
    exact leavesDisplays_of_readsAs rfl (readsAs_scan _ _) (by simp [sparesDisplay_write, sparesDisplay_read])
  | false => rw [scanSlot_of_unbound hb] at h; cases h

theorem silent_setLed (l : LocalIdx) : Relates Silent (setLedSlot l) := fun _ _ _ _ h => by
  cases h; exact ⟨rfl, rfl, rfl⟩

theorem silent_clrLed (l : LocalIdx) : Relates Silent (clrLedSlot l) := fun _ _ _ _ h => by
  cases h; exact ⟨rfl, rfl, rfl⟩

theorem silent_clear : Relates Silent clearSlot := fun _ _ _ _ h => by
  cases h; exact ⟨rfl, rfl, rfl⟩

/-- A query answers a value and leaves the state alone. -/
theorem silent_query {f : SlotNo → State → SlotResult} (hf : ∀ k s, ∃ c, f k s = .ok (c, s)) : Relates Silent f := by
  intro k s t c h
  obtain ⟨d, hd⟩ := hf k s
  rw [hd] at h
  cases h; exact silent_refl s

theorem silent_isLed (l : LocalIdx) : Relates Silent (isLedSlot l) := silent_query fun _ _ => ⟨_, rfl⟩

theorem silent_isPressed (l : LocalIdx) : Relates Silent (isPressedSlot l) := silent_query fun _ _ => ⟨_, rfl⟩

theorem silent_wasPressed (l : LocalIdx) : Relates Silent (wasPressedSlot l) := silent_query fun _ _ => ⟨_, rfl⟩

theorem silent_justPressed (l : LocalIdx) : Relates Silent (justPressedSlot l) := silent_query fun _ _ => ⟨_, rfl⟩

theorem silent_justReleased (l : LocalIdx) : Relates Silent (justReleasedSlot l) := silent_query fun _ _ => ⟨_, rfl⟩

theorem silent_atLocal {f : LocalIdx → SlotNo → State → SlotResult} (hf : ∀ l, Relates Silent (f l)) (b : Byte) :
    Relates Silent (atLocal b f) := by
  intro k s t c h
  cases hb : localOperand b with
  | some l => rw [atLocal_of_some hb] at h; exact hf l k s t c h
  | none => rw [atLocal_of_none hb] at h; cases h; exact silent_refl s

/-! ### The delegation schemes: what they relate -/

namespace TransportRelation

variable {P : State → State → Prop} {s t : State}

theorem respond (hP : TransportRelation P) (r : Resp) (h : P s t) : P s (t.respond r) :=
  hP.trans h (hP.of_silent (silent_respond t r))

theorem finish (hP : TransportRelation P) {f : SlotNo → State → SlotResult} (hf : Relates P f) {k : SlotNo}
    (h : finish (f k s) = .next t) : P s t := by
  obtain ⟨c, u, hu, rfl⟩ := finish_eq_next.1 h
  exact hP.respond c (hf k s u c hu)

theorem perSlot (hP : TransportRelation P) {f : SlotNo → State → SlotResult} (hf : Relates P f) {a : Byte}
    (h : perSlot a f s = .next t) : P s t := by
  cases hl : liveSlot s a with
  | none => rw [perSlot_of_dead hl] at h; cases h; exact hP.of_silent (silent_respond s 0)
  | some k => rw [perSlot_of_live hl] at h; exact hP.finish hf h

theorem route (hP : TransportRelation P) {f : LocalIdx → SlotNo → State → SlotResult} (hf : ∀ l, Relates P (f l))
    {b : Byte} (h : route b f s = .next t) : P s t := by
  cases hb : flatOperand b with
  | none => rw [route_of_none hb] at h; cases h; exact hP.of_silent (silent_respond s 0)
  | some n =>
    rw [route_of_some hb] at h
    split at h
    · exact hP.finish (hf _) h
    · cases h; exact hP.of_silent (silent_respond s 0)

theorem visit (hP : TransportRelation P) {f : SlotNo → State → SlotResult} (hf : Relates P f) {S : SlotSet}
    {ks : List SlotNo} {any any' : Bool} (h : visit S f ks any s = .ok (any', t)) : P s t :=
  visit_rel (fun s => hP.of_silent (silent_refl s)) hP.trans (fun _ => hf _ _ _ _) ks h

theorem broadcast (hP : TransportRelation P) {f : SlotNo → State → SlotResult} (hf : Relates P f)
    (h : broadcast f s = .next t) : P s t := by
  obtain ⟨any, u, hu, rfl⟩ := broadcast_eq_next.1 h
  exact hP.respond 0 (hP.visit hf hu)

theorem scanSet (hP : TransportRelation P) {f : SlotNo → State → SlotResult} (hf : Relates P f) {S : SlotSet}
    (h : scanSet S f s = .next t) : P s t := by
  obtain ⟨any, u, hu, rfl⟩ := scanSet_eq_next.1 h
  exact hP.respond _ (hP.visit hf hu)

end TransportRelation

/-! ### The delegation schemes: silent, or some slot is reached -/

section
variable {f : SlotNo → State → SlotResult} {s t : State}

theorem perSlot_silent_or {a : Byte} (h : perSlot a f s = .next t) :
    Silent s t ∨ ∃ k : SlotNo, a = slotByte k ∧ s.cfg.present[k] = true := by
  rcases dead_or_live s a with hdead | hlive
  · rw [perSlot_of_dead (deadSlot_iff.1 hdead)] at h
    cases h; exact .inl (silent_respond s 0)
  · exact .inr hlive

/-- A visit of a set without a present slot leaves the state alone. -/
theorem visit_silent_or {S : SlotSet} (ks : List SlotNo) : ∀ {any any' : Bool},
    visit S f ks any s = .ok (any', t) → t = s ∨ ∃ k : SlotNo, S[k] = true ∧ s.cfg.present[k] = true := by
  induction ks with
  | nil => intro any any' h; cases h; exact .inl rfl
  | cons k ks ih =>
    intro any any' h
    rw [visit] at h
    split at h
    · rename_i hvisit
      exact .inr ⟨k, Bool.and_eq_true_iff.1 hvisit⟩
    · exact ih h

theorem scanSet_silent_or {S : SlotSet} (h : scanSet S f s = .next t) :
    Silent s t ∨ ∃ k : SlotNo, S[k] = true ∧ s.cfg.present[k] = true := by
  obtain ⟨any, u, hu, rfl⟩ := scanSet_eq_next.1 h
  rcases visit_silent_or slotOrder hu with rfl | hreach
  · exact .inl (silent_respond u _)
  · exact .inr hreach

theorem broadcast_silent_or (h : broadcast f s = .next t) : Silent s t ∨ ∃ k : SlotNo, s.cfg.present[k] = true := by
  obtain ⟨any, u, hu, rfl⟩ := broadcast_eq_next.1 h
  rcases visit_silent_or slotOrder hu with rfl | ⟨k, -, hk⟩
  · exact .inl (silent_respond u 0)
  · exact .inr ⟨k, hk⟩

end

/-! ### `exec` -/

/-- What the command `i`, completed from `s` in `t`, did on the transport. -/
inductive TransportEffect (i : Instr) (s t : State) : Prop where
  /-- nothing (R48) -/
  | silent (h : Silent s t)
  /-- R94, R114 -/
  | flush (command : Flushes i) (reached : ∃ k, Reaches i s k)
  /-- R81, R82, R83, R101 and the `G_` forms -/
  | settings (command : (∃ k, Reaches i s k) ∨ ∃ a b c, i = .dInit a b c) (h : LeavesDisplays s t)

theorem TransportEffect.of_flush {i : Instr} {s t : State} (hi : Flushes i) (h : Silent s t ∨ ∃ k, Reaches i s k) :
    TransportEffect i s t :=
  h.elim .silent (.flush hi)

theorem TransportEffect.of_leavesDisplays {i : Instr} {s t : State} (hleaves : LeavesDisplays s t)
    (h : Silent s t ∨ ∃ k, Reaches i s k) : TransportEffect i s t :=
  h.elim .silent fun hreach => .settings (.inl hreach) hleaves

/-- What a completed command does on the transport. -/
theorem exec_transportEffect {i : Instr} {s t : State} (h : exec i s = .next t) : TransportEffect i s t := by
  have hS := transportRelation_silent
  have hL := transportRelation_leavesDisplays
  cases i with
  | dInit a b c => exact .settings (.inr ⟨a, b, c, rfl⟩) (hL.perSlot (leavesDisplays_init b c) h)
  | dBright a b => exact .of_leavesDisplays (hL.perSlot (leavesDisplays_bright b) h) (perSlot_silent_or h)
  | dBlink a b => exact .of_leavesDisplays (hL.perSlot (leavesDisplays_blink b) h) (perSlot_silent_or h)
  | dFlush a => exact .of_flush (.inl ⟨a, rfl⟩) (perSlot_silent_or h)
  | dClear a => exact .silent (hS.perSlot silent_clear h)
  | dScan a => exact .of_leavesDisplays (hL.perSlot leavesDisplays_scan h) (perSlot_silent_or h)
  | dIsLed a b => exact .silent (hS.perSlot (silent_atLocal silent_isLed b) h)
  | dSetLed a b => exact .silent (hS.perSlot (silent_atLocal silent_setLed b) h)
  | dClrLed a b => exact .silent (hS.perSlot (silent_atLocal silent_clrLed b) h)
  | dIsPressed a b => exact .silent (hS.perSlot (silent_atLocal silent_isPressed b) h)
  | dWasPressed a b => exact .silent (hS.perSlot (silent_atLocal silent_wasPressed b) h)
  | dJustPressed a b => exact .silent (hS.perSlot (silent_atLocal silent_justPressed b) h)
  | dJustReleased a b => exact .silent (hS.perSlot (silent_atLocal silent_justReleased b) h)
  | gBright b => exact .of_leavesDisplays (hL.broadcast (leavesDisplays_bright b) h) (broadcast_silent_or h)
  | gBlink b => exact .of_leavesDisplays (hL.broadcast (leavesDisplays_blink b) h) (broadcast_silent_or h)
  | gFlush => exact .of_flush (.inr rfl) (broadcast_silent_or h)
  | gClear => exact .silent (hS.broadcast silent_clear h)
  | gScan =>
    exact .of_leavesDisplays (hL.scanSet leavesDisplays_scan h)
      ((scanSet_silent_or h).imp_right fun ⟨k, _, hk⟩ => ⟨k, hk⟩)
  | gScanP => exact .of_leavesDisplays (hL.scanSet leavesDisplays_scan h) (scanSet_silent_or h)
  | gScanS => exact .of_leavesDisplays (hL.scanSet leavesDisplays_scan h) (scanSet_silent_or h)
  | gIsLed b => exact .silent (hS.route silent_isLed h)
  | gSetLed b => exact .silent (hS.route silent_setLed h)
  | gClrLed b => exact .silent (hS.route silent_clrLed h)
  | gIsPressed b => exact .silent (hS.route silent_isPressed h)
  | gWasPressed b => exact .silent (hS.route silent_wasPressed h)
  | gJustPressed b => exact .silent (hS.route silent_justPressed h)
  | gJustReleased b => exact .silent (hS.route silent_justReleased h)
  | xy2i b c => cases h; exact .silent (silent_respond s _)
  | i2xy b => cases h; exact .silent (silent_respond s _)

/-- Settles O50: a command that is not silent reaches a slot or is a `D_INIT`. -/
theorem onlyTransportCommandsEmit : Obligations.OnlyTransportCommandsEmit := by
  intro i s t hreach hinit h
  cases exec_transportEffect h with
  | silent hsilent => exact hsilent
  | flush _ hreached => exact absurd hreached (not_exists.2 hreach)
  | settings hcommand _ =>
    rcases hcommand with ⟨k, hk⟩ | ⟨a, b, c, hi⟩
    · exact absurd hk (hreach k)
    · exact absurd hi (hinit a b c)

/-- Settles O53: what is neither silent nor a flush leaves the displays alone. -/
theorem chipDisplayChangesOnlyAtAFlush : Obligations.ChipDisplayChangesOnlyAtAFlush := by
  intro i s t hflush ⟨_, hclosed, _⟩ h a
  cases exec_transportEffect h with
  | silent hsilent => rw [hsilent.1]
  | flush hflushes _ => exact absurd hflushes hflush
  | settings _ hleaves => exact (hleaves hclosed).2 a

end Sys2Proof.Machine
end

