-- ==== Sys2Proof/Proofs/Encoding.lean ====
section
/-! PROOFS. The encoding: a word is command `i` exactly when the bits `i` uses are those of `i`'s word, and the opcodes of R65
are the ones without a command. Commands on a dead slot, absorbed (R66), stand at the end. -/

namespace Sys2Proof.Machine

/-! ### The fields of a word (R60) -/

/-- A word is made of its four fields. -/
theorem command_fields (w : Word) : command (fieldOp w) (fieldA w) (fieldB w) (fieldC w) = w := by
  refine BitVec.eq_of_getLsbD_eq fun i hi => ?_
  simp only [command_getLsbD, fieldOp, fieldA, fieldB, fieldC, BitVec.getLsbD_extractLsb']
  split_ifs with hc hb ha
  · simp [hc]
  · rw [Nat.add_sub_cancel' (by omega)]; simp [show i - 8 < 8 by omega]
  · rw [Nat.add_sub_cancel' (by omega)]; simp [show i - 16 < 8 by omega]
  · rw [Nat.add_sub_cancel' (by omega)]; simp [show i - 24 < 8 by omega]

theorem fieldOp_toNat (w : Word) : (fieldOp w).toNat = w.toNat / 2 ^ 24 := by
  have := w.isLt
  rw [fieldOp, BitVec.extractLsb'_toNat, Nat.shiftRight_eq_div_pow]
  omega

theorem command_inj {op a b c op' a' b' c' : Byte} :
    command op a b c = command op' a' b' c' ↔ op = op' ∧ a = a' ∧ b = b' ∧ c = c' := by
  constructor
  · intro h
    exact ⟨by simpa only [fieldOp_command] using congrArg fieldOp h,
      by simpa only [fieldA_command] using congrArg fieldA h,
      by simpa only [fieldB_command] using congrArg fieldB h,
      by simpa only [fieldC_command] using congrArg fieldC h⟩
  · rintro ⟨rfl, rfl, rfl, rfl⟩; rfl

/-- Two words are masked field by field. -/
theorem command_and_command (op a b c op' a' b' c' : Byte) :
    command op a b c &&& command op' a' b' c' = command (op &&& op') (a &&& a') (b &&& b') (c &&& c') := by
  refine BitVec.eq_of_getLsbD_eq fun i _ => ?_
  simp only [BitVec.getLsbD_and, command_getLsbD]
  split_ifs <;> rfl

/-! ### The masks of the column "Uses" of R63

A word masked to the fields a command uses is the command's word exactly when those fields hold its opcode and operands. -/

theorem and_byte_ones (x : Byte) : x &&& 0xFF = x := BitVec.and_allOnes

theorem and_byte_zeros (x : Byte) : x &&& 0 = 0 := BitVec.and_zero

section
variable {w : Word} {op a b c : Byte}

theorem and_command_eq_iff {mop ma mb mc : Byte} : w &&& command mop ma mb mc = command op a b c ↔
    fieldOp w &&& mop = op ∧ fieldA w &&& ma = a ∧ fieldB w &&& mb = b ∧ fieldC w &&& mc = c := by
  conv_lhs => rw [← command_fields w, command_and_command, command_inj]

theorem and_usesABC_eq_iff :
    w &&& 0xFFFFFFFF = command op a b c ↔ fieldOp w = op ∧ fieldA w = a ∧ fieldB w = b ∧ fieldC w = c := by
  have hmask : (0xFFFFFFFF : Word) = command 0xFF 0xFF 0xFF 0xFF := rfl
  simp only [hmask, and_command_eq_iff, and_byte_ones]

theorem and_usesAB_eq_iff : w &&& 0xFFFFFF00 = command op a b 0 ↔ fieldOp w = op ∧ fieldA w = a ∧ fieldB w = b := by
  have hmask : (0xFFFFFF00 : Word) = command 0xFF 0xFF 0xFF 0 := rfl
  simp only [hmask, and_command_eq_iff, and_byte_ones, and_byte_zeros, and_true]

theorem and_usesA_eq_iff : w &&& 0xFFFF0000 = command op a 0 0 ↔ fieldOp w = op ∧ fieldA w = a := by
  have hmask : (0xFFFF0000 : Word) = command 0xFF 0xFF 0 0 := rfl
  simp only [hmask, and_command_eq_iff, and_byte_ones, and_byte_zeros, and_true]

theorem and_usesB_eq_iff : w &&& 0xFF00FF00 = command op 0 b 0 ↔ fieldOp w = op ∧ fieldB w = b := by
  have hmask : (0xFF00FF00 : Word) = command 0xFF 0 0xFF 0 := rfl
  simp only [hmask, and_command_eq_iff, and_byte_ones, and_byte_zeros, and_true, true_and]

theorem and_usesBC_eq_iff : w &&& 0xFF00FFFF = command op 0 b c ↔ fieldOp w = op ∧ fieldB w = b ∧ fieldC w = c := by
  have hmask : (0xFF00FFFF : Word) = command 0xFF 0 0xFF 0xFF := rfl
  simp only [hmask, and_command_eq_iff, and_byte_ones, and_byte_zeros, true_and]

theorem and_usesNone_eq_iff : w &&& 0xFF000000 = command op 0 0 0 ↔ fieldOp w = op := by
  have hmask : (0xFF000000 : Word) = command 0xFF 0 0 0 := rfl
  simp only [hmask, and_command_eq_iff, and_byte_ones, and_byte_zeros, and_true]

end

/-! ### What a word decodes to -/

/-- All the decoder can answer: at an opcode outside R65 a command whose word `w` is on the bits the command uses, at one of
R65 the error that names it. The rows of R63 with the same "Uses" stand together. -/
theorem decode_cases (w : Word) :
    (∃ i, decode w = .ok i ∧ w &&& i.usedMask = encode i ∧ ¬ ReservedOp (fieldOp w).toNat) ∨
      (decode w = .error (.reservedOpcode (fieldOp w)) ∧ ReservedOp (fieldOp w).toNat) := by
  fun_cases decode w with
  | case1 hop =>
    exact .inl ⟨_, rfl, and_usesABC_eq_iff.2 ⟨BitVec.eq_of_toNat_eq hop, rfl, rfl, rfl⟩, by simp [hop, ReservedOp]⟩
  | case2 hop | case3 hop | case7 hop | case8 hop | case9 hop | case10 hop | case11 hop | case12 hop | case13 hop =>
    exact .inl ⟨_, rfl, and_usesAB_eq_iff.2 ⟨BitVec.eq_of_toNat_eq hop, rfl, rfl⟩, by simp [hop, ReservedOp]⟩
  | case4 hop | case5 hop | case6 hop =>
    exact .inl ⟨_, rfl, and_usesA_eq_iff.2 ⟨BitVec.eq_of_toNat_eq hop, rfl⟩, by simp [hop, ReservedOp]⟩
  | case14 hop | case15 hop | case21 hop | case22 hop | case23 hop | case24 hop | case25 hop | case26 hop | case27 hop
  | case29 hop =>
    exact .inl ⟨_, rfl, and_usesB_eq_iff.2 ⟨BitVec.eq_of_toNat_eq hop, rfl⟩, by simp [hop, ReservedOp]⟩
  | case16 hop | case17 hop | case18 hop | case19 hop | case20 hop =>
    exact .inl ⟨_, rfl, and_usesNone_eq_iff.2 (BitVec.eq_of_toNat_eq hop), by simp [hop, ReservedOp]⟩
  | case28 hop =>
    exact .inl ⟨_, rfl, and_usesBC_eq_iff.2 ⟨BitVec.eq_of_toNat_eq hop, rfl, rfl⟩, by simp [hop, ReservedOp]⟩
  | case30 =>
    refine .inr ⟨rfl, ?_⟩
    simp only [imp_false] at *
    unfold ReservedOp
    omega

/-- A word that is command `i` on the bits `i` uses decodes to `i`. -/
theorem decode_of_used {w : Word} {i : Instr} (h : w &&& i.usedMask = encode i) : decode w = .ok i := by
  cases i with
  | dInit a b c =>
    obtain ⟨hop, rfl, rfl, rfl⟩ := and_usesABC_eq_iff.1 h
    simp only [decode, hop]; rfl
  | dBright a b | dBlink a b | dIsLed a b | dSetLed a b | dClrLed a b | dIsPressed a b | dWasPressed a b
  | dJustPressed a b | dJustReleased a b =>
    obtain ⟨hop, rfl, rfl⟩ := and_usesAB_eq_iff.1 h
    simp only [decode, hop]; rfl
  | dFlush a | dClear a | dScan a =>
    obtain ⟨hop, rfl⟩ := and_usesA_eq_iff.1 h
    simp only [decode, hop]; rfl
  | gBright b | gBlink b | gIsLed b | gSetLed b | gClrLed b | gIsPressed b | gWasPressed b | gJustPressed b
  | gJustReleased b | i2xy b =>
    obtain ⟨hop, rfl⟩ := and_usesB_eq_iff.1 h
    simp only [decode, hop]; rfl
  | gFlush | gClear | gScan | gScanP | gScanS =>
    have hop := and_usesNone_eq_iff.1 h
    simp only [decode, hop]; rfl
  | xy2i b c =>
    obtain ⟨hop, rfl, rfl⟩ := and_usesBC_eq_iff.1 h
    simp only [decode, hop]; rfl

/-- A word decodes to `i` exactly when it is `i`'s word on the bits `i` uses (R63, R64). -/
theorem decode_eq_ok_iff {w : Word} {i : Instr} : decode w = .ok i ↔ w &&& i.usedMask = encode i := by
  refine ⟨fun h => ?_, decode_of_used⟩
  obtain ⟨j, hj, hused, _⟩ | ⟨herror, _⟩ := decode_cases w
  · cases h.symm.trans hj
    exact hused
  · cases h.symm.trans herror

/-- The encoder sets no bit that the command does not use (R64). -/
theorem encode_and_usedMask (i : Instr) : encode i &&& i.usedMask = encode i := by
  cases i with
  | dInit a b c =>
    exact and_usesABC_eq_iff.2 ⟨fieldOp_command .., fieldA_command .., fieldB_command .., fieldC_command ..⟩
  | dBright a b | dBlink a b | dIsLed a b | dSetLed a b | dClrLed a b | dIsPressed a b | dWasPressed a b
  | dJustPressed a b | dJustReleased a b =>
    exact and_usesAB_eq_iff.2 ⟨fieldOp_command .., fieldA_command .., fieldB_command ..⟩
  | dFlush a | dClear a | dScan a => exact and_usesA_eq_iff.2 ⟨fieldOp_command .., fieldA_command ..⟩
  | gBright b | gBlink b | gIsLed b | gSetLed b | gClrLed b | gIsPressed b | gWasPressed b | gJustPressed b
  | gJustReleased b | i2xy b => exact and_usesB_eq_iff.2 ⟨fieldOp_command .., fieldB_command ..⟩
  | gFlush | gClear | gScan | gScanP | gScanS => exact and_usesNone_eq_iff.2 (fieldOp_command ..)
  | xy2i b c => exact and_usesBC_eq_iff.2 ⟨fieldOp_command .., fieldB_command .., fieldC_command ..⟩

/-! ### The step at an offered word -/

theorem step_of_illFormed {s : State} (h : s.cfg.wellFormed = false) : step s = .refused .illFormedTables := by
  rw [step, fetch_of_illFormed h]

/-- Words of one command step alike. -/
theorem step_offer_congr {w w' : Word} {i : Instr} (h : decode w = .ok i) (h' : decode w' = .ok i) (s : State) :
    step (s.offer w') = step (s.offer w) := by
  cases hwf : s.cfg.wellFormed with
  | true =>
    rw [stepRunsThePresentedCommand (s.offer w') w' s.pending i hwf rfl h',
      stepRunsThePresentedCommand (s.offer w) w s.pending i hwf rfl h]
    rfl
  | false => rw [step_of_illFormed (s := s.offer w') hwf, step_of_illFormed (s := s.offer w) hwf]

theorem step_offer_of_error {w : Word} {op : Byte} (h : decode w = .error (.reservedOpcode op)) {s : State}
    (hwf : s.cfg.wellFormed = true) : step (s.offer w) = .refused (.reservedOpcode w) := by
  rw [step, fetch_of_wellFormed (s := s.offer w) hwf]
  simp only [State.offer_pending, offered_of_error h]

/-! ### The obligations -/

/-- Settles O1: the encoder sets used bits only, and those determine the command. -/
theorem encodedCommandDecodesToItself : Obligations.EncodedCommandDecodesToItself := fun i =>
  decode_eq_ok_iff.2 (encode_and_usedMask i)

/-- Settles O2: the word is the command's word on the bits the command uses. -/
theorem decodedWordReEncodesToItsUsedBits : Obligations.DecodedWordReEncodesToItsUsedBits := fun _ _ h =>
  (decode_eq_ok_iff.1 h).symm

/-- Settles O3: both words are the command's word on the bits it uses. -/
theorem unusedFieldsAreIgnored : Obligations.UnusedFieldsAreIgnored := by
  intro w w' i h hused
  have h' : decode w' = .ok i := decode_eq_ok_iff.2 (hused ▸ decode_eq_ok_iff.1 h)
  exact ⟨h', step_offer_congr h h'⟩

/-- Settles O4: a word decodes to a command or has a reserved opcode, and the step refuses the error of the decoder. -/
theorem reservedOpcodesAreRefused : Obligations.ReservedOpcodesAreRefused := by
  intro w
  rw [← fieldOp_toNat]
  obtain ⟨i, hdecode, _, hdefined⟩ | ⟨herror, hreserved⟩ := decode_cases w
  · exact ⟨⟨fun hop => absurd hop hdefined, fun hno => absurd hdecode (hno i)⟩, fun hop => absurd hop hdefined⟩
  · refine ⟨iff_of_true hreserved fun i h => ?_, fun _ s hwf => step_offer_of_error herror hwf⟩
    cases h.symm.trans herror

/-- Settles O5, by running the decoder on the eight words. -/
theorem writtenWordsDecode : Obligations.WrittenWordsDecode := by
  unfold Obligations.WrittenWordsDecode
  decide

/-- Settles O11: every `D_` command is a per-slot command, and one whose operand names no live slot is absorbed (R66). -/
theorem dCommandsOnADeadSlotAreAbsorbed : Obligations.DCommandsOnADeadSlotAreAbsorbed := by
  intro s a b c hdead
  have absorbed (f : SlotNo → State → SlotResult) : perSlot a f s = .next (s.respond 0) :=
    perSlot_of_dead (deadSlot_iff.1 hdead) f
  exact ⟨absorbed _, absorbed _, absorbed _, absorbed _, absorbed _, absorbed _, absorbed _, absorbed _, absorbed _,
    absorbed _, absorbed _, absorbed _, absorbed _⟩

end Sys2Proof.Machine
end

