-- ==== Sys2Proof/Proofs/ChipControl.lean ====
section
/-! PROOFS. The chip control commands (`40_chip_control.md`): the bytes `D_INIT`, `D_BRIGHT` and `D_BLINK` send, in the
spec's own spelling of the clamps, and the chip as the start-up bytes leave it. -/

namespace Sys2Proof.Machine

/-! ### Operands and bytes (R72, R82, R83) -/

/-- Only a level above 15 is changed by the clamp (R82). -/
theorem clampLevel_eq (v : Byte) : clampLevel v = if 15 < v.toNat then 15 else v := by
  simp only [clampLevel, ← not_lt, ite_not]
  rfl

/-- Only a rate above 3 is replaced, by OFF (R83). -/
theorem selectRate_eq (v : Byte) : selectRate v = if 3 < v.toNat then 0 else v := by
  simp only [selectRate, ← not_lt, ite_not]
  rfl

/-- The clamp as a number: `min(v, 15)` (R72). -/
theorem clampLevel_toNat (v : Byte) : (clampLevel v).toNat = min v.toNat 15 := by
  unfold clampLevel
  split
  · omega
  · rw [BitVec.toNat_ofNat]; omega

theorem clampLevel_le (v : Byte) : (clampLevel v).toNat ≤ 15 := by
  rw [clampLevel_toNat]; exact Nat.min_le_right _ _

/-- The address operand is its low 7 bits (R67). -/
theorem addressOperand_eq (b : Byte) : addressOperand b = b.setWidth 7 :=
  (BitVec.setWidth_eq_extractLsb' (by decide)).symm

/-! ### The commands on a present slot -/

section
variable {s : State} {k : SlotNo}

/-- `D_INIT` on a present slot binds the address and sends the start-up bytes to it, bound before or not (R81). -/
theorem exec_dInit_of_present (addr brightness : Byte) (hp : s.cfg.present[k] = true) :
    exec (.dInit (slotByte k) addr brightness) s =
      .next (((s.bind k (addressOperand addr)).emit
        (cmdEvents (addressOperand addr) (startupBytes brightness))).respond 0) := by
  rw [exec, execDInit, perSlot_of_live (liveSlot_slotByte hp), initSlot_eq, finish]

theorem exec_dBright_of_bound (level : Byte) (hp : s.cfg.present[k] = true) (hb : s.slots[k].bound = true) :
    exec (.dBright (slotByte k) level) s =
      .next ((s.emit (writeEvents s.slots[k].addr [brightByte (clampLevel level)])).respond 0) := by
  rw [exec, execDBright, perSlot_of_live (liveSlot_slotByte hp), brightSlot_of_bound level hb, finish]

theorem exec_dBright_of_unbound (level : Byte) (hp : s.cfg.present[k] = true) (hb : s.slots[k].bound = false) :
    exec (.dBright (slotByte k) level) s = .fault (.unboundAddress k s) := by
  rw [exec, execDBright, perSlot_of_live (liveSlot_slotByte hp), brightSlot_of_unbound level hb, finish]

theorem exec_dBlink_of_bound (rate : Byte) (hp : s.cfg.present[k] = true) (hb : s.slots[k].bound = true) :
    exec (.dBlink (slotByte k) rate) s =
      .next ((s.emit (writeEvents s.slots[k].addr [blinkByte (selectRate rate)])).respond 0) := by
  rw [exec, execDBlink, perSlot_of_live (liveSlot_slotByte hp), blinkSlot_of_bound rate hb, finish]

theorem exec_dBlink_of_unbound (rate : Byte) (hp : s.cfg.present[k] = true) (hb : s.slots[k].bound = false) :
    exec (.dBlink (slotByte k) rate) s = .fault (.unboundAddress k s) := by
  rw [exec, execDBlink, perSlot_of_live (liveSlot_slotByte hp), blinkSlot_of_unbound rate hb, finish]

end

/-- Settles O12: the state of `exec_dInit_of_present`, its events written out, a transaction for each byte (R80). -/
theorem dInitBindsTheAddressAndStartsTheChip : Obligations.DInitBindsTheAddressAndStartsTheChip := by
  refine fun s addr brightness => ⟨fun k hp => ?_, fun a hdead => ?_⟩
  · rw [exec_dInit_of_present addr brightness hp, startupBytes, clampLevel_eq, addressOperand_eq]
    rfl
  · exact perSlot_of_dead (deadSlot_iff.1 hdead) _

/-- Settles O13: one transaction with the clamped level, on a bound slot only. -/
theorem dBrightSendsTheClampedLevel : Obligations.DBrightSendsTheClampedLevel := by
  refine fun s level => ⟨fun k hp hb => ?_, fun _ => exec_dBright_of_unbound level, fun a hdead => ?_⟩
  · rw [exec_dBright_of_bound level hp hb, clampLevel_eq]
    rfl
  · exact perSlot_of_dead (deadSlot_iff.1 hdead) _

/-- Settles O14: one transaction with the selected rate, on a bound slot only. -/
theorem dBlinkSendsTheRateOrOff : Obligations.DBlinkSendsTheRateOrOff := by
  refine fun s rate => ⟨fun k hp hb => ?_, fun _ => exec_dBlink_of_unbound rate, fun a hdead => ?_⟩
  · rw [exec_dBlink_of_bound rate hp hb, selectRate_eq]
    rfl
  · exact perSlot_of_dead (deadSlot_iff.1 hdead) _

/-! ### The chip at the address (R22, R44, R81) -/

/-- A level byte tells the chip its low nibble as brightness (R44). -/
theorem ChipView.write_brightByte (v : ChipView) {l : Byte} (hl : l.toNat ≤ 15) :
    v.write [brightByte l] = { v with brightness := some (BitVec.ofNat 4 l.toNat) } := by
  have hall : ∀ n : Fin 16, brightByte (BitVec.ofNat 8 n.val) ≠ oscillatorByte ∧
      brightByte (BitVec.ofNat 8 n.val) ≠ interruptByte ∧
      (brightByte (BitVec.ofNat 8 n.val)).extractLsb' 4 4 = 0xE#4 ∧
      (brightByte (BitVec.ofNat 8 n.val)).extractLsb' 0 4 = BitVec.ofNat 4 n.val := by decide
  have h := hall ⟨l.toNat, by omega⟩
  simp only [BitVec.ofNat_toNat, BitVec.setWidth_eq] at h
  obtain ⟨hosc, hint, hhigh, hlow⟩ := h
  simp [ChipView.write, hosc, hint, hhigh, hlow]

/-- The start-up bytes set all four settings, whatever they were, and no display memory (R81). -/
theorem foldl_apply_startupBytes (a : BusAddr) (brightness : Byte) (v : ChipView) :
    ((startupBytes brightness).map fun b => Transaction.write a [b]).foldl (ChipView.apply a) v =
      { oscillator := some true, blink := some 0, brightness := some (BitVec.ofNat 4 (min brightness.toNat 15)),
        interruptOut := some true, display := v.display } := by
  have hosc (v : ChipView) : v.write [oscillatorByte] = { v with oscillator := some true } := rfl
  have hblink (v : ChipView) : v.write [blinkByte 0] = { v with blink := some 0 } := rfl
  have hint (v : ChipView) : v.write [interruptByte] = { v with interruptOut := some true } := rfl
  simp only [startupBytes, List.map_cons, List.map_nil, List.foldl_cons, List.foldl_nil, ChipView.apply, if_true,
    hosc, hblink, hint, ChipView.write_brightByte _ (clampLevel_le brightness), clampLevel_toNat]

/-- Settles O54: the trace grows by the start-up bytes, which the chip at the address bound takes in order. -/
theorem dInitSetsUpTheChip : Obligations.DInitSetsUpTheChip := by
  intro s k addr brightness hp ⟨_, hclosed, _⟩
  refine ⟨_, exec_dInit_of_present addr brightness hp, ?_⟩
  rw [← addressOperand_eq]
  exact (chipView_append hclosed (readsAs_cmd _ _) _).trans (foldl_apply_startupBytes _ brightness _)

end Sys2Proof.Machine
end

