-- ==== Sys2Proof/Proofs/LedBuffer.lean ====
section
/-! PROOFS. The LED buffer commands (`41_led_buffer.md`): the one bit `D_SETLED` and `D_CLRLED` write, what `D_ISLED`
answers, and the laws that relate the three. -/

namespace Sys2Proof.Machine

/-! ### One bit of the display buffer (R34, R92, R93) -/

/-- A table entry holds its word in the upper nibble and its bit in the lower one (R34, D16). -/
theorem ledPos_eq_iff {cfg : Config} {i : LocalIdx} {w : Fin 8} {b : Fin 16} :
    ledPos cfg i = (w.val, b.val) ↔ cfg.ledLut[i].toNat = 16 * w.val + b.val := by
  have := b.isLt
  simp only [ledPos, entryHigh_eq, entryLow_eq, Prod.mk.injEq]
  omega

/-- The buffer `d` with the bit of local index `i` lit (R92). -/
def lit (cfg : Config) (i : LocalIdx) (d : DispBuf) : DispBuf :=
  d.setIfInBounds (ledPos cfg i).1 (d[(ledPos cfg i).1]?.getD 0 ||| (1#16 <<< (ledPos cfg i).2))

/-- The buffer `d` with the bit of local index `i` out (R93). -/
def unlit (cfg : Config) (i : LocalIdx) (d : DispBuf) : DispBuf :=
  d.setIfInBounds (ledPos cfg i).1 (d[(ledPos cfg i).1]?.getD 0 &&& ~~~(1#16 <<< (ledPos cfg i).2))

/-- A write of one word changes that word only. -/
theorem getElem_setIfInBounds_word (d : DispBuf) (n : Nat) (f : DispWord → DispWord) (w : Fin 8) :
    (d.setIfInBounds n (f (d[n]?.getD 0)))[w] = if n = w.val then f d[w] else d[w] := by
  by_cases h : n = w.val
  · subst h; simp
  · simp [h]

theorem getLsbD_one_shiftLeft (n : Nat) (b : Fin 16) : (1#16 <<< n).getLsbD b.val = decide (n = b.val) := by
  have := b.isLt
  rw [← BitVec.twoPow_eq, BitVec.getLsbD_twoPow, ← Bool.decide_and, decide_eq_decide]
  omega

section
variable (cfg : Config) (i : LocalIdx) (d : DispBuf) (w : Fin 8) (b : Fin 16)

theorem lit_getLsbD : (lit cfg i d)[w].getLsbD b.val = true ↔
    ledPos cfg i = (w.val, b.val) ∨ d[w].getLsbD b.val = true := by
  rw [lit, getElem_setIfInBounds_word d _ (· ||| (1#16 <<< (ledPos cfg i).2)), Prod.ext_iff]
  split
  case isTrue hw => simp only [BitVec.getLsbD_or, getLsbD_one_shiftLeft, Bool.or_eq_true, decide_eq_true_eq, hw,
    true_and, or_comm]
  case isFalse hw => simp only [hw, false_and, false_or]

theorem unlit_getLsbD : (unlit cfg i d)[w].getLsbD b.val = true ↔
    ledPos cfg i ≠ (w.val, b.val) ∧ d[w].getLsbD b.val = true := by
  have hb := b.isLt
  rw [unlit, getElem_setIfInBounds_word d _ (· &&& ~~~(1#16 <<< (ledPos cfg i).2)), ne_eq, Prod.ext_iff]
  split
  case isTrue hw => simp only [BitVec.getLsbD_and, BitVec.getLsbD_not, getLsbD_one_shiftLeft, Bool.and_eq_true,
    Bool.not_eq_true', decide_eq_true_eq, decide_eq_false_iff_not, hb, hw, true_and, and_comm]
  case isFalse hw => simp only [hw, false_and, not_false_eq_true, true_and]

end

/-! ### The tested bits under a well-formed table (R36) -/

theorem testDisp_fin (d : DispBuf) (w : Fin 8) (b : Fin 16) : testDisp d (w.val, b.val) = d[w].getLsbD b.val := by
  simp [testDisp]

section
variable {cfg : Config}

/-- R36(a): every local index names a bit that the buffer has. -/
theorem ledPos_exists (h : cfg.LedLutOk) (i : LocalIdx) :
    ∃ (w : Fin 8) (b : Fin 16), ledPos cfg i = (w.val, b.val) := by
  obtain ⟨hword, -⟩ := h
  have hi := hword i
  refine ⟨⟨cfg.ledLut[i].toNat / 16, by omega⟩, ⟨cfg.ledLut[i].toNat % 16, by omega⟩, ?_⟩
  simp only [ledPos, entryHigh_eq, entryLow_eq]

/-- R36(b): two local indices name two bits. -/
theorem ledPos_inj (h : cfg.LedLutOk) {i j : LocalIdx} : ledPos cfg i = ledPos cfg j ↔ i = j := by
  refine ⟨fun hij => ?_, fun hij => hij ▸ rfl⟩
  obtain ⟨w, b, hj⟩ := ledPos_exists h j
  obtain ⟨-, hinj⟩ := h
  exact hinj i j (BitVec.eq_of_toNat_eq ((ledPos_eq_iff.1 (hij.trans hj)).trans (ledPos_eq_iff.1 hj).symm))

theorem testDisp_lit (h : cfg.LedLutOk) (i j : LocalIdx) (d : DispBuf) :
    testDisp (lit cfg i d) (ledPos cfg j) = true ↔ i = j ∨ testDisp d (ledPos cfg j) = true := by
  obtain ⟨w, b, hj⟩ := ledPos_exists h j
  rw [← ledPos_inj h, hj, testDisp_fin, testDisp_fin, lit_getLsbD]

theorem testDisp_unlit (h : cfg.LedLutOk) (i j : LocalIdx) (d : DispBuf) :
    testDisp (unlit cfg i d) (ledPos cfg j) = true ↔ i ≠ j ∧ testDisp d (ledPos cfg j) = true := by
  obtain ⟨w, b, hj⟩ := ledPos_exists h j
  rw [ne_eq, ← ledPos_inj h, hj, testDisp_fin, testDisp_fin, unlit_getLsbD]

end

/-! ### The commands (R90 to R95) -/

/-- An operand either is out of range or names a local index (R31). -/
theorem out_or_local (b : Byte) : 15 < b.toNat ∨ ∃ i : LocalIdx, b = localByte i := by
  cases h : localOperand b with
  | none => exact .inl (localOperand_eq_none.1 h)
  | some i => exact .inr ⟨i, BitVec.eq_of_toNat_eq (by rw [localOperand_eq_some.1 h, localByte_toNat])⟩

section
variable {f : LocalIdx → SlotNo → State → SlotResult} {s : State}

theorem perSlot_atLocal_of_present {k : SlotNo} (hp : s.cfg.present[k] = true) (i : LocalIdx) :
    perSlot (slotByte k) (atLocal (localByte i) f) s = finish (f i k s) := by
  rw [perSlot_of_live (liveSlot_slotByte hp), atLocal_of_some (localOperand_localByte i)]

/-- A command whose slot is dead or whose index is out of range is absorbed (R66, R90). -/
theorem perSlot_atLocal_of_dead_or_out {a b : Byte} (h : DeadSlot s a ∨ 15 < b.toNat) :
    perSlot a (atLocal b f) s = .next (s.respond 0) := by
  rcases dead_or_live s a with hdead | ⟨k, rfl, hp⟩
  · exact perSlot_of_dead (deadSlot_iff.1 hdead) _
  · rw [perSlot_of_live (liveSlot_slotByte hp)]
    rcases h with hdead | hout
    · rw [deadSlot_iff, liveSlot_slotByte hp] at hdead
      cases hdead
    · rw [atLocal_of_none (localOperand_eq_none.2 hout)]; rfl

end

/-- The state with the display buffer of slot `k` replaced by `d`. -/
def State.setDisp (s : State) (k : SlotNo) (d : DispBuf) : State := s.setSlot k { s.slots[k] with disp := d }

theorem State.setDisp_cfg (s : State) (k : SlotNo) (d : DispBuf) : (s.setDisp k d).cfg = s.cfg := rfl

theorem State.setDisp_disp (s : State) (k : SlotNo) (d : DispBuf) : (s.setDisp k d).slots[k].disp = d := by
  rw [setDisp, setSlot_same]

theorem State.respond_inj {s : State} {r r' : Resp} : s.respond r = s.respond r' ↔ r = r' :=
  ⟨fun h => by simpa using congrArg State.responses h, fun h => h ▸ rfl⟩

section
variable {s : State} {k : SlotNo} (hp : s.cfg.present[k] = true)
include hp

theorem exec_dSetLed_of_present (i : LocalIdx) : exec (.dSetLed (slotByte k) (localByte i)) s =
    .next ((s.setDisp k (lit s.cfg i s.slots[k].disp)).respond 0) :=
  perSlot_atLocal_of_present hp i

theorem exec_dClrLed_of_present (i : LocalIdx) : exec (.dClrLed (slotByte k) (localByte i)) s =
    .next ((s.setDisp k (unlit s.cfg i s.slots[k].disp)).respond 0) :=
  perSlot_atLocal_of_present hp i

theorem exec_dIsLed_of_present (i : LocalIdx) : exec (.dIsLed (slotByte k) (localByte i)) s =
    .next (s.respond (boolResp (testDisp s.slots[k].disp (ledPos s.cfg i)))) :=
  perSlot_atLocal_of_present hp i

theorem exec_dClear_of_present : exec (.dClear (slotByte k)) s =
    .next ((s.setDisp k #v[0, 0, 0, 0, 0, 0, 0, 0]).respond 0) := by
  rw [exec, execDClear, perSlot_of_live (liveSlot_slotByte hp)]
  rfl

theorem exec_dFlush_of_unbound (hb : s.slots[k].bound = false) :
    exec (.dFlush (slotByte k)) s = .fault (.unboundAddress k s) := by
  rw [exec, execDFlush, perSlot_of_live (liveSlot_slotByte hp), flushSlot_of_unbound hb, finish]

end

/-- A command that completes with the response `r₀` and changes nothing else answers `r₀` only. -/
theorem answers_iff_of_exec {i : Instr} {s : State} {r₀ : Resp} (h : exec i s = .next (s.respond r₀)) (r : Resp) :
    Answers i s r ↔ r₀ = r := by
  rw [Answers, h, Host.Outcome.next.injEq]
  exact State.respond_inj

theorem answers_dIsLed_iff {s : State} {k : SlotNo} (hp : s.cfg.present[k] = true) (i : LocalIdx) (r : Resp) :
    Answers (.dIsLed (slotByte k) (localByte i)) s r ↔ boolResp (testDisp s.slots[k].disp (ledPos s.cfg i)) = r :=
  answers_iff_of_exec (exec_dIsLed_of_present hp i) r

theorem answers_dIsLed_of_dead_or_out {s : State} {a b : Byte} (h : DeadSlot s a ∨ 15 < b.toNat) (r : Resp) :
    Answers (.dIsLed a b) s r ↔ 0 = r :=
  answers_iff_of_exec (i := .dIsLed a b) (perSlot_atLocal_of_dead_or_out h) r

/-- Settles O15: the answer of `exec_dIsLed_of_present`, the bit read by its entry's number. -/
theorem dIsLedAnswersItsBit : Obligations.DIsLedAnswersItsBit := by
  refine fun s => ⟨fun k i hp => ?_, fun a b h => perSlot_atLocal_of_dead_or_out h⟩
  rw [answers_dIsLed_iff hp, truth_eq, ledBit_eq]

/-- Settles O16: the buffer left is `lit`. -/
theorem dSetLedSetsOneBit : Obligations.DSetLedSetsOneBit := by
  refine fun s => ⟨fun k i hp => ⟨_, exec_dSetLed_of_present hp i, fun w b => ?_⟩,
    fun a b h => perSlot_atLocal_of_dead_or_out h⟩
  rw [lit_getLsbD, ledPos_eq_iff]

/-- Settles O17: the buffer left is `unlit`. -/
theorem dClrLedClearsOneBit : Obligations.DClrLedClearsOneBit := by
  refine fun s => ⟨fun k i hp => ⟨_, exec_dClrLed_of_present hp i, fun w b => ?_⟩,
    fun a b h => perSlot_atLocal_of_dead_or_out h⟩
  rw [unlit_getLsbD, ne_eq, ledPos_eq_iff]

/-- Settles O18: one transaction with the bytes of `flushBytes_eq`, on a bound slot only. -/
theorem dFlushSendsSeventeenBytes : Obligations.DFlushSendsSeventeenBytes := by
  refine fun s => ⟨fun k hp hb => ?_, fun _ => exec_dFlush_of_unbound, fun a hdead => ?_⟩
  · rw [exec_dFlush_of_bound hp hb, flushBytes_eq]
    rfl
  · exact perSlot_of_dead (deadSlot_iff.1 hdead) _

/-- Settles O19: the state of `exec_dClear_of_present`, bound or not. -/
theorem dClearZeroesTheBuffer : Obligations.DClearZeroesTheBuffer :=
  fun _ => ⟨fun _ => exec_dClear_of_present, fun _ hdead => perSlot_of_dead (deadSlot_iff.1 hdead) _⟩

/-! ### The laws (R96) -/

section
variable {s t : State} {k : SlotNo}

/-- What `D_ISLED` answers depends on the configuration and its slot only. -/
theorem answers_dIsLed_congr (hcfg : t.cfg = s.cfg) (hslot : t.slots[k] = s.slots[k]) (b : Byte) (r : Resp) :
    Answers (.dIsLed (slotByte k) b) t r ↔ Answers (.dIsLed (slotByte k) b) s r := by
  rcases out_or_local b with hout | ⟨i, rfl⟩
  · rw [answers_dIsLed_of_dead_or_out (.inr hout), answers_dIsLed_of_dead_or_out (.inr hout)]
  · rcases dead_or_live s (slotByte k) with hdead | ⟨j, hj, hp⟩
    · have hdead' : DeadSlot t (slotByte k) := by rwa [DeadSlot, hcfg]
      rw [answers_dIsLed_of_dead_or_out (.inl hdead), answers_dIsLed_of_dead_or_out (.inl hdead')]
    · obtain rfl := slotByte_inj.1 hj
      rw [answers_dIsLed_iff hp, answers_dIsLed_iff (hcfg ▸ hp), hslot, hcfg]

/-- What `D_ISLED` answers in a state whose display buffer of slot `k` was written. -/
theorem answers_dIsLed_setDisp (hp : s.cfg.present[k] = true) (d : DispBuf) (r₀ : Resp) (i : LocalIdx) (r : Resp) :
    Answers (.dIsLed (slotByte k) (localByte i)) ((s.setDisp k d).respond r₀) r ↔
      boolResp (testDisp d (ledPos s.cfg i)) = r := by
  have hp' : ((s.setDisp k d).respond r₀).cfg.present[k] = true := hp
  rw [answers_dIsLed_iff hp', State.respond_cfg, State.respond_slots, State.setDisp_disp, State.setDisp_cfg]

/-- Law 2: after a set of `i` its test is true, with no flush between. -/
theorem answers_dIsLed_of_dSetLed (hlut : s.cfg.LedLutOk) (hp : s.cfg.present[k] = true) {i : LocalIdx}
    (h : exec (.dSetLed (slotByte k) (localByte i)) s = .next t) :
    Answers (.dIsLed (slotByte k) (localByte i)) t 1 := by
  rw [exec_dSetLed_of_present hp, Host.Outcome.next.injEq] at h
  rw [← h, answers_dIsLed_setDisp hp, (testDisp_lit hlut i i _).2 (.inl rfl)]
  rfl

/-- Law 1: after a clear of `i` its test is false, whatever came before. -/
theorem answers_dIsLed_of_dClrLed (hlut : s.cfg.LedLutOk) (hp : s.cfg.present[k] = true) {i : LocalIdx}
    (h : exec (.dClrLed (slotByte k) (localByte i)) s = .next t) :
    Answers (.dIsLed (slotByte k) (localByte i)) t 0 := by
  rw [exec_dClrLed_of_present hp, Host.Outcome.next.injEq] at h
  have hout : testDisp (unlit s.cfg i s.slots[k].disp) (ledPos s.cfg i) = false :=
    Bool.eq_false_iff.2 fun hlit => ((testDisp_unlit hlut i i _).1 hlit).1 rfl
  rw [← h, answers_dIsLed_setDisp hp, hout]
  rfl

/-- Law 3: a set or a clear of `i` leaves the test of `j` alone. -/
theorem answers_dIsLed_other (hlut : s.cfg.LedLutOk) (hp : s.cfg.present[k] = true) {i j : LocalIdx} (hij : i ≠ j)
    (h : exec (.dSetLed (slotByte k) (localByte i)) s = .next t ∨
      exec (.dClrLed (slotByte k) (localByte i)) s = .next t) (r : Resp) :
    Answers (.dIsLed (slotByte k) (localByte j)) t r ↔ Answers (.dIsLed (slotByte k) (localByte j)) s r := by
  rw [exec_dSetLed_of_present hp, exec_dClrLed_of_present hp, Host.Outcome.next.injEq, Host.Outcome.next.injEq] at h
  have hlit : testDisp (lit s.cfg i s.slots[k].disp) (ledPos s.cfg j) = testDisp s.slots[k].disp (ledPos s.cfg j) := by
    rw [Bool.eq_iff_iff, testDisp_lit hlut, or_iff_right hij]
  have hunlit : testDisp (unlit s.cfg i s.slots[k].disp) (ledPos s.cfg j) = testDisp s.slots[k].disp (ledPos s.cfg j) := by
    rw [Bool.eq_iff_iff, testDisp_unlit hlut, and_iff_right hij]
  rcases h with rfl | rfl
  · rw [answers_dIsLed_setDisp hp, answers_dIsLed_iff hp, hlit]
  · rw [answers_dIsLed_setDisp hp, answers_dIsLed_iff hp, hunlit]

/-- Law 4: after a clear of the buffer every test is false, also one out of range. -/
theorem answers_dIsLed_of_dClear (hp : s.cfg.present[k] = true) (h : exec (.dClear (slotByte k)) s = .next t)
    (b : Byte) : Answers (.dIsLed (slotByte k) b) t 0 := by
  rw [exec_dClear_of_present hp, Host.Outcome.next.injEq] at h
  rcases out_or_local b with hout | ⟨i, rfl⟩
  · exact (answers_dIsLed_of_dead_or_out (.inr hout) 0).2 rfl
  · have hzero : testDisp #v[0, 0, 0, 0, 0, 0, 0, 0] (ledPos s.cfg i) = false := testDisp_reset _
    rw [← h, answers_dIsLed_setDisp hp, hzero]
    rfl

end

/-- A completed command addressed to one slot leaves every other slot as it was (R24). -/
theorem slots_eq_of_addressed {i : Instr} {s t : State} {n : Nat} {j : SlotNo} (hi : i.addressed = some n)
    (hj : j.val ≠ n) (h : exec i s = .next t) : t.slots[j] = s.slots[j] := by
  have hself : withSlot j s.slots[j] s = s := by simp [withSlot]
  have hkeep := aCommandTouchesNoOtherSlot i n j s.slots[j] s hi hj
  rw [hself, h, onState, Host.Outcome.next.injEq] at hkeep
  rw [hkeep]
  simp [withSlot]

/-- Settles O20, law by law; a command on another slot leaves both what the test reads (law 5), and out of range all
three commands are absorbed (law 6). -/
theorem ledBufferLaws : Obligations.LedBufferLaws := by
  intro s k hlut hp
  refine ⟨fun i => ?_, fun i j hij t r h => answers_dIsLed_other hlut hp hij h r,
    ⟨_, exec_dClear_of_present hp, answers_dIsLed_of_dClear hp (exec_dClear_of_present hp)⟩,
    fun i t j hi hj h b r => ?_, fun b hb => ?_⟩
  · obtain ⟨t, hset⟩ : ∃ t, exec (.dSetLed (slotByte k) (localByte i)) s = .next t := ⟨_, exec_dSetLed_of_present hp i⟩
    obtain ⟨hcfg, -⟩ := exec_keeps hset
    have hp' : t.cfg.present[k] = true := hcfg ▸ hp
    have hclr := exec_dClrLed_of_present hp' i
    exact ⟨t, _, hset, answers_dIsLed_of_dSetLed hlut hp hset, hclr, answers_dIsLed_of_dClrLed (hcfg ▸ hlut) hp' hclr⟩
  · obtain ⟨hcfg, -⟩ := exec_keeps h
    exact answers_dIsLed_congr hcfg (slots_eq_of_addressed hi (Fin.val_ne_of_ne hj) h) b r
  · have absorbed (f : LocalIdx → SlotNo → State → SlotResult) :
        perSlot (slotByte k) (atLocal b f) s = .next (s.respond 0) :=
      perSlot_atLocal_of_dead_or_out (.inr hb)
    exact ⟨absorbed _, absorbed _, absorbed _⟩

end Sys2Proof.Machine
end

