-- ==== Sys2Proof/Proofs/KeyEdge.lean ====
section
/-! PROOFS. The key edge detector (`42_key_edge.md`): what a scan leaves and answers, and the four predicates as functions of
the two bits their operands select. -/

namespace Sys2Proof.Machine

/-! ### The two tested bits (R35, R100) -/

/-- The bit that slot operand `a` and key operand `b` select in a key buffer of the slot, 0 where the predicates are
absorbed (R100). -/
def selectedBit (buffer : Slot → KeyBytes) (s : State) (a b : Byte) : Bool :=
  match liveSlot s a, localOperand b with
  | some k, some i => testKey (buffer s.slots[k]) (keyPos s.cfg i)
  | _, _ => false

section
variable {buffer : Slot → KeyBytes} {s t : State} {a b : Byte}

theorem selectedBit_of_present {k : SlotNo} (hp : s.cfg.present[k] = true) (i : LocalIdx) :
    selectedBit buffer s (slotByte k) (localByte i) = testKey (buffer s.slots[k]) (keyPos s.cfg i) := by
  simp only [selectedBit, liveSlot_slotByte hp, localOperand_localByte]

theorem selectedBit_of_dead_or_out (h : DeadSlot s a ∨ 15 < b.toNat) : selectedBit buffer s a b = false := by
  rcases h with hdead | hout
  · simp only [selectedBit, deadSlot_iff.1 hdead]
  · rw [selectedBit, localOperand_eq_none.2 hout]
    cases liveSlot s a <;> rfl

/-- Operands either are absorbed or select a bit of a present slot (R100). -/
theorem absorbed_or_selected (s : State) (a b : Byte) : (DeadSlot s a ∨ 15 < b.toNat) ∨
    ∃ (k : SlotNo) (i : LocalIdx), a = slotByte k ∧ b = localByte i ∧ s.cfg.present[k] = true := by
  rcases dead_or_live s a with hdead | ⟨k, ha, hp⟩
  · exact .inl (.inl hdead)
  · exact (out_or_local b).imp .inr fun ⟨i, hb⟩ => ⟨k, i, ha, hb, hp⟩

/-- The bit depends on the configuration and the named slot's buffer only. -/
theorem selectedBit_congr {buffer' : Slot → KeyBytes} (hcfg : t.cfg = s.cfg)
    (hbuf : ∀ k : SlotNo, a = slotByte k → buffer' t.slots[k] = buffer s.slots[k]) :
    selectedBit buffer' t a b = selectedBit buffer s a b := by
  rcases absorbed_or_selected s a b with h | ⟨k, i, rfl, rfl, hp⟩
  · have h' : DeadSlot t a ∨ 15 < b.toNat := by rwa [DeadSlot, hcfg]
    rw [selectedBit_of_dead_or_out h, selectedBit_of_dead_or_out h']
  · rw [selectedBit_of_present hp, selectedBit_of_present (hcfg ▸ hp), hbuf k rfl, hcfg]

/-! ### The predicates (R102 to R105) -/

/-- The predicate that answers `g` of the current and the previous bit, on one slot. -/
def predicateSlot (g : Bool → Bool → Bool) (i : LocalIdx) (k : SlotNo) (s : State) : SlotResult :=
  .ok (boolResp (g (curBit i k s) (prevBit i k s)), s)

/-- A predicate that is false of two bits 0 answers `g` of the selected bits for all operands, absorbed ones too. -/
theorem perSlot_predicate {g : Bool → Bool → Bool} (hg : g false false = false) (s : State) (a b : Byte) :
    perSlot a (atLocal b (predicateSlot g)) s =
      .next (s.respond (boolResp (g (selectedBit Slot.keyCur s a b) (selectedBit Slot.keyPrev s a b)))) := by
  rcases absorbed_or_selected s a b with h | ⟨k, i, rfl, rfl, hp⟩
  · rw [perSlot_atLocal_of_dead_or_out h, selectedBit_of_dead_or_out h, selectedBit_of_dead_or_out h, hg]
    rfl
  · rw [perSlot_atLocal_of_present hp, selectedBit_of_present hp, selectedBit_of_present hp]
    rfl

variable {r : Resp}

theorem answers_dIsPressed_iff : Answers (.dIsPressed a b) s r ↔ boolResp (selectedBit Slot.keyCur s a b) = r :=
  answers_iff_of_exec (i := .dIsPressed a b) (perSlot_predicate (g := fun cur _ => cur) rfl s a b) r

theorem answers_dWasPressed_iff : Answers (.dWasPressed a b) s r ↔ boolResp (selectedBit Slot.keyPrev s a b) = r :=
  answers_iff_of_exec (i := .dWasPressed a b) (perSlot_predicate (g := fun _ prev => prev) rfl s a b) r

theorem answers_dJustPressed_iff : Answers (.dJustPressed a b) s r ↔
    boolResp (selectedBit Slot.keyCur s a b && !selectedBit Slot.keyPrev s a b) = r :=
  answers_iff_of_exec (i := .dJustPressed a b) (perSlot_predicate (g := justPressed) rfl s a b) r

theorem answers_dJustReleased_iff : Answers (.dJustReleased a b) s r ↔
    boolResp (!selectedBit Slot.keyCur s a b && selectedBit Slot.keyPrev s a b) = r :=
  answers_iff_of_exec (i := .dJustReleased a b) (perSlot_predicate (g := justReleased) rfl s a b) r

end

/-- Settles O23: the selected bits are those of the table's entries, and 0 where the predicates are absorbed. -/
theorem dKeyPredicatesAnswerTheirBits : Obligations.DKeyPredicatesAnswerTheirBits := by
  refine fun s => ⟨fun k i hp => ?_, fun a b h => ?_⟩
  · simp only [answers_dIsPressed_iff, answers_dWasPressed_iff, answers_dJustPressed_iff, answers_dJustReleased_iff,
      selectedBit_of_present hp, keyBit_eq, truth_eq, and_self]
  · simp only [answers_dIsPressed_iff, answers_dWasPressed_iff, answers_dJustPressed_iff, answers_dJustReleased_iff,
      selectedBit_of_dead_or_out h]
    decide

/-! ### What a scan leaves alone (R106, R111) -/

/-- Slots visited: a slot outside the set is left alone. -/
theorem visit_slot_of_not_mem {i : Instr} {f : SlotNo → State → SlotResult} (hf : ∀ k, Affects i k (f k)) {S : SlotSet}
    {j : SlotNo} (hj : ¬ S[j] = true) (ks : List SlotNo) : ∀ {any any' : Bool} {s t : State},
      visit S f ks any s = .ok (any', t) → t.slots[j] = s.slots[j] := by
  induction ks with
  | nil => intro any any' s t h; cases h; rfl
  | cons k ks ih =>
    intro any any' s t h
    rw [visit] at h
    split at h
    · rename_i hvisit
      have hjk : j ≠ k := fun e => hj (e ▸ (Bool.and_eq_true_iff.1 hvisit).1)
      split at h
      · rename_i c u hu
        obtain ⟨-, hother, -⟩ := hf k _ _ _ hu
        exact (ih h).trans (hother j hjk)
      · cases h
    · exact ih h

theorem scanSet_slot_of_not_mem {i : Instr} {f : SlotNo → State → SlotResult} (hf : ∀ k, Affects i k (f k)) {S : SlotSet}
    {j : SlotNo} (hj : ¬ S[j] = true) {s t : State} (h : scanSet S f s = .next t) : t.slots[j] = s.slots[j] := by
  obtain ⟨any, u, hu, rfl⟩ := scanSet_eq_next.1 h
  exact visit_slot_of_not_mem (t := u) hf hj slotOrder hu

section
variable {i : Instr} {s t : State} {k : SlotNo}

/-- A scan leaves a slot that it does not reach as it was. -/
theorem slot_eq_of_scan_not_reaching (hi : Scans i) (hk : ¬ Reaches i s k) (h : exec i s = .next t) :
    t.slots[k] = s.slots[k] := by
  rcases exec_slotsAfter h k with hsame | ⟨hp, -⟩
  · exact hsame
  · rcases hi with ⟨a, rfl⟩ | rfl | rfl | rfl
    · exact slots_eq_of_addressed rfl (fun hka => hk ⟨eq_slotByte.2 hka.symm, hp⟩) h
    · exact absurd hp hk
    · exact scanSet_slot_of_not_mem (affects_scan (.inr (.inr (.inl rfl)))) (fun hS => hk ⟨hS, hp⟩) h
    · exact scanSet_slot_of_not_mem (affects_scan (.inr (.inr (.inr rfl)))) (fun hS => hk ⟨hS, hp⟩) h

/-- Only a scan that reaches a slot writes its key buffers. -/
theorem keyBuffers_eq_of_not_scanned (hk : ¬ (Scans i ∧ Reaches i s k)) (h : exec i s = .next t) :
    t.slots[k].keyCur = s.slots[k].keyCur ∧ t.slots[k].keyPrev = s.slots[k].keyPrev := by
  by_cases hi : Scans i
  · rw [slot_eq_of_scan_not_reaching hi (fun hr => hk ⟨hi, hr⟩) h]
    exact ⟨rfl, rfl⟩
  · exact (onlyScansWriteTheKeyBuffers i s t k h).resolve_right fun ⟨hscan, _⟩ => hi hscan

end

/-- Settles O24: all four predicates are functions of the two selected bits, which only a scan of their slot writes. -/
theorem edgePredicateLaws : Obligations.EdgePredicateLaws := by
  refine ⟨fun s a b => ?_, fun i s t a hnot h b r => ?_⟩
  · refine ⟨selectedBit Slot.keyCur s a b, selectedBit Slot.keyPrev s a b, _, _, answers_dIsPressed_iff.2 rfl,
      answers_dWasPressed_iff.2 rfl, answers_dJustPressed_iff.2 rfl, answers_dJustReleased_iff.2 rfl, rfl, rfl, ?_⟩
    cases selectedBit Slot.keyCur s a b <;> simp
  · obtain ⟨hcfg, -⟩ := exec_keeps h
    have hkeys (k : SlotNo) (ha : a = slotByte k) := keyBuffers_eq_of_not_scanned (hnot k ha) h
    have hcur : selectedBit Slot.keyCur t a b = selectedBit Slot.keyCur s a b :=
      selectedBit_congr hcfg fun k ha => (hkeys k ha).1
    have hprev : selectedBit Slot.keyPrev t a b = selectedBit Slot.keyPrev s a b :=
      selectedBit_congr hcfg fun k ha => (hkeys k ha).2
    simp only [answers_dIsPressed_iff, answers_dWasPressed_iff, answers_dJustPressed_iff, answers_dJustReleased_iff,
      hcur, hprev, and_self]

/-! ### `D_SCAN` (R101) -/

/-- The comparator as the truth value of "differs". -/
theorem changed_eq (cur prev : KeyBytes) : changed cur prev = decide (cur ≠ prev) := by
  rw [Bool.eq_iff_iff, changed_iff, decide_eq_true_iff]

section
variable {s : State} {k : SlotNo}

theorem exec_dScan_of_bound (hp : s.cfg.present[k] = true) (hb : s.slots[k].bound = true) :
    exec (.dScan (slotByte k)) s =
      .next ((s.scanned k).respond (boolResp (decide (s.answerAt 0 ≠ s.slots[k].keyCur)))) := by
  rw [exec, execDScan, perSlot_of_live (liveSlot_slotByte hp), scanSlot_of_bound hb, finish, changed_eq]

theorem exec_dScan_of_unbound (hp : s.cfg.present[k] = true) (hb : s.slots[k].bound = false) :
    exec (.dScan (slotByte k)) s = .fault (.unboundAddress k s) := by
  rw [exec, execDScan, perSlot_of_live (liveSlot_slotByte hp), scanSlot_of_unbound hb, finish]

theorem State.scanned_keyCur : (s.scanned k).slots[k].keyCur = s.answerAt 0 := by simp [State.scanned]

theorem State.scanned_keyPrev : (s.scanned k).slots[k].keyPrev = s.slots[k].keyCur := by simp [State.scanned]

end

/-- Settles O22: the state of `State.scanned` on a bound slot; the bound check comes before any change. -/
theorem dScanRotatesAndReads : Obligations.DScanRotatesAndReads :=
  fun _ => ⟨fun _ => exec_dScan_of_bound, fun _ => exec_dScan_of_unbound,
    fun _ hdead => perSlot_of_dead (deadSlot_iff.1 hdead) _⟩

/-! ### The comparator at bit level (R107) -/

/-- Byte `n` of the 48-bit value is byte `n` of the buffer: the `n` bytes below it are 8 bits each. -/
theorem keys48_byte (r : KeyBytes) (n : Fin 6) : (keys48 r).extractLsb' (8 * n.val) 8 = r[n] := by
  ext b hb
  have happend : (keys48 r).getLsbD (8 * n.val + b) =
      (r[5] ++ r[4] ++ r[3] ++ r[2] ++ r[1] ++ r[0]).getLsbD (8 * n.val + b) := rfl
  rw [BitVec.getElem_extractLsb', ← BitVec.getLsbD_eq_getElem, happend]
  simp only [BitVec.getLsbD_append]
  fin_cases n <;> grind

theorem keys48_inj {r r' : KeyBytes} : keys48 r = keys48 r' ↔ r = r' := by
  refine ⟨fun h => vector_ext_iff_fin.2 fun n => ?_, fun h => h ▸ rfl⟩
  rw [← keys48_byte, ← keys48_byte, h]

/-- Some bit of the XOR is 1 exactly if the buffers differ. -/
theorem keys48_xor_ne_zero {r r' : KeyBytes} : keys48 r ^^^ keys48 r' ≠ 0 ↔ r ≠ r' :=
  not_congr (BitVec.xor_eq_zero_iff.trans keys48_inj)

theorem boolResp_eq_zero {c : Bool} : boolResp c = 0 ↔ c = false := by
  cases c <;> decide

/-- A slot whose two key buffers are equal shows no edge, whatever the key. -/
theorem noEdge_of_keyBuffers_eq {t : State} {k : SlotNo} (h : t.slots[k].keyCur = t.slots[k].keyPrev) (b : Byte) :
    Answers (.dJustPressed (slotByte k) b) t 0 ∧ Answers (.dJustReleased (slotByte k) b) t 0 := by
  have hbits : selectedBit Slot.keyCur t (slotByte k) b = selectedBit Slot.keyPrev t (slotByte k) b :=
    selectedBit_congr rfl fun j hj => slotByte_inj.1 hj ▸ h
  rw [answers_dJustPressed_iff, answers_dJustReleased_iff, hbits, Bool.and_not_self, Bool.not_and_self]
  decide

/-- Settles O25: a scan leaves the old current buffer as the previous one, so its comparison is of the pair it leaves. -/
theorem scanResultIsTheXorReduction : Obligations.ScanResultIsTheXorReduction := by
  refine fun s k hp hb => ⟨_, exec_dScan_of_bound hp hb, ?_, fun hzero => ?_⟩
  · simp only [State.respond_slots, State.scanned_keyCur, State.scanned_keyPrev, keys48_xor_ne_zero]
    rfl
  · have hresp : boolResp (decide (s.answerAt 0 ≠ s.slots[k].keyCur)) = 0 :=
      List.singleton_inj.1 ((List.append_right_inj s.responses).1 hzero)
    have hsame : s.answerAt 0 = s.slots[k].keyCur :=
      not_not.1 (of_decide_eq_false (boolResp_eq_zero.1 hresp))
    refine noEdge_of_keyBuffers_eq ?_
    rw [State.respond_slots, State.scanned_keyCur, State.scanned_keyPrev, hsame]

end Sys2Proof.Machine
end

