-- ==== Sys2Proof/Proofs/Broadcast.lean ====
section
/-! PROOFS. The broadcasts (`43_aggregate.md` R111 to R115). One induction over the slots visited serves them and the group
scans: what holds of the slots visited so far, and is kept by one more, holds of all the present slots of the set. -/

namespace Sys2Proof.Machine

/-! ### One slot of a visit -/

section
variable {S : SlotSet} {f : SlotNo → State → SlotResult} {k : SlotNo} {ks : List SlotNo} {any : Bool} {s t : State}

theorem visit_cons_of_skipped (hk : (S[k] && s.present k) = false) : visit S f (k :: ks) any s = visit S f ks any s := by
  simp only [visit, hk, Bool.false_eq_true, if_false]

theorem visit_cons_of_ok {c : Resp} (hk : (S[k] && s.present k) = true) (h : f k s = .ok (c, t)) :
    visit S f (k :: ks) any s = visit S f ks (any || c == 1#16) t := by
  simp only [visit, hk, if_true, h]

theorem visit_cons_of_error {e : Fault} (hk : (S[k] && s.present k) = true) (h : f k s = .error e) :
    visit S f (k :: ks) any s = .error e := by
  simp only [visit, hk, if_true, h]

end

/-- A visit of two lists in a row is the visit of the second after that of the first. -/
theorem visit_append (S : SlotSet) (f : SlotNo → State → SlotResult) (ks ks' : List SlotNo) (any : Bool) (s : State) :
    visit S f (ks ++ ks') any s = (visit S f ks any s).bind fun p => visit S f ks' p.1 p.2 := by
  induction ks generalizing any s with
  | nil => rfl
  | cons k ks ih =>
    rw [List.cons_append]
    cases hk : S[k] && s.present k with
    | false => rw [visit_cons_of_skipped hk, visit_cons_of_skipped hk, ih]
    | true =>
      cases hf : f k s with
      | ok p => rw [visit_cons_of_ok hk hf, visit_cons_of_ok hk hf, ih]
      | error e => rw [visit_cons_of_error hk hf, visit_cons_of_error hk hf]; rfl

/-! ### All the slots of a visit (R111) -/

/-- `P l any t` says what is left, and answered, once the slots `l` have been visited from `s`: it holds at the start, and
`f` on one more slot completes and keeps it, if that slot is ready. -/
structure VisitLeaves (f : SlotNo → State → SlotResult) (s : State) (Ready : SlotNo → Prop)
    (P : List SlotNo → Bool → State → Prop) : Prop where
  cfg : ∀ {l any t}, P l any t → t.cfg = s.cfg
  start : P [] false s
  next : ∀ {l any t k}, P l any t → k ∉ l → Ready k →
    ∃ c u, f k t = .ok (c, u) ∧ P (l ++ [k]) (any || c == 1#16) u

/-- The slots a visit acts on, of those listed. -/
def visited (S : SlotSet) (s : State) (ks : List SlotNo) : List SlotNo := ks.filter fun k => S[k] && s.cfg.present[k]

theorem visited_slotOrder (S : SlotSet) (s : State) : visited S s slotOrder = presentIn S s := rfl

theorem mem_visited {S : SlotSet} {s : State} {ks : List SlotNo} {k : SlotNo} :
    k ∈ visited S s ks ↔ k ∈ ks ∧ (S[k] && s.cfg.present[k]) = true := List.mem_filter

theorem mem_presentIn {S : SlotSet} {s : State} {k : SlotNo} :
    k ∈ presentIn S s ↔ S[k] = true ∧ s.cfg.present[k] = true := by
  have hall : k ∈ slotOrder := by fin_cases k <;> decide
  rw [← visited_slotOrder, mem_visited, Bool.and_eq_true, and_iff_right hall]

theorem mem_presentIn_all {s : State} {k : SlotNo} : k ∈ presentIn SlotSet.all s ↔ s.cfg.present[k] = true := by
  have hall : SlotSet.all[k] = true := by fin_cases k <;> rfl
  rw [mem_presentIn, and_iff_right hall]

/-- The slots before `k`, in the order of a visit, are those smaller than `k` (D18). -/
theorem slotOrder_split (k : SlotNo) : slotOrder = slotOrder.filter (· < k) ++ k :: slotOrder.filter (k < ·) := by
  fin_cases k <;> rfl

theorem visited_before (S : SlotSet) (s : State) (k : SlotNo) :
    visited S s (slotOrder.filter (· < k)) = (presentIn S s).filter (· < k) :=
  List.filter_comm ..

namespace VisitLeaves

variable {f : SlotNo → State → SlotResult} {s : State} {Ready : SlotNo → Prop} {P : List SlotNo → Bool → State → Prop}

/-- A visit whose slots are all ready completes. -/
theorem visit_list (hP : VisitLeaves f s Ready P) {S : SlotSet} (ks : List SlotNo) :
    ∀ {l : List SlotNo} {any : Bool} {t : State}, P l any t → (l ++ ks).Nodup →
      (∀ k ∈ visited S s ks, Ready k) →
      ∃ any' u, visit S f ks any t = .ok (any', u) ∧ P (l ++ visited S s ks) any' u := by
  induction ks with
  | nil => intro l any t h _ _; exact ⟨any, t, rfl, by rwa [visited, List.filter_nil, List.append_nil]⟩
  | cons k ks ih =>
    intro l any t h hnd hready
    have hpresent : (S[k] && t.present k) = (S[k] && s.cfg.present[k]) := by rw [State.present, hP.cfg h]
    cases hk : S[k] && s.cfg.present[k] with
    | false =>
      have hskip : visited S s (k :: ks) = visited S s ks :=
        List.filter_cons_of_neg (by rw [hk]; exact Bool.false_ne_true)
      rw [hskip] at hready ⊢
      rw [visit_cons_of_skipped (hpresent.trans hk)]
      exact ih h (hnd.sublist ((List.sublist_cons_self k ks).append_left l)) hready
    | true =>
      have htake : visited S s (k :: ks) = k :: visited S s ks := List.filter_cons_of_pos hk
      rw [htake] at hready ⊢
      obtain ⟨hkready, hrest⟩ := List.forall_mem_cons.1 hready
      have hkl : k ∉ l := fun hmem => List.disjoint_of_nodup_append hnd hmem List.mem_cons_self
      obtain ⟨c, u, hfk, hu⟩ := hP.next h hkl hkready
      rw [visit_cons_of_ok (hpresent.trans hk) hfk, List.append_cons]
      exact ih hu (by rwa [← List.append_cons]) hrest

/-- With every present slot of the set ready, the visit of all slots completes. -/
theorem visit_slotOrder (hP : VisitLeaves f s Ready P) {S : SlotSet} (hready : ∀ k ∈ presentIn S s, Ready k) :
    ∃ any t, visit S f slotOrder false s = .ok (any, t) ∧ P (presentIn S s) any t :=
  hP.visit_list slotOrder hP.start slotOrder_nodup hready

/-- With a present slot of the set that raises the fault, and the slots before it ready, the visit of all slots ends
there, the slots before it visited (R156). -/
theorem visit_slotOrder_fault (hP : VisitLeaves f s Ready P) {S : SlotSet} {k : SlotNo}
    (hfault : ∀ {l any t}, P l any t → k ∉ l → f k t = .error (.unboundAddress k t)) (hk : k ∈ presentIn S s)
    (hready : ∀ j ∈ presentIn S s, j < k → Ready j) :
    ∃ any t, visit S f slotOrder false s = .error (.unboundAddress k t) ∧ P ((presentIn S s).filter (· < k)) any t := by
  have hbefore : ∀ j ∈ visited S s (slotOrder.filter (· < k)), Ready j := by
    intro j hj
    rw [visited_before, List.mem_filter, decide_eq_true_iff] at hj
    obtain ⟨hmem, hlt⟩ := hj
    exact hready j hmem hlt
  have hnodup : (slotOrder.filter (· < k)).Nodup := slotOrder_nodup.filter _
  obtain ⟨any, t, hvisit, ht⟩ := hP.visit_list (slotOrder.filter (· < k)) hP.start hnodup hbefore
  rw [List.nil_append, visited_before] at ht
  refine ⟨any, t, ?_, ht⟩
  rw [slotOrder_split k, visit_append, hvisit]
  have hvisited : (S[k] && t.present k) = true := by
    rw [State.present, hP.cfg ht, Bool.and_eq_true]
    exact mem_presentIn.1 hk
  exact visit_cons_of_error hvisited (hfault ht (by simp))

end VisitLeaves

/-! ### Broadcasts that send (R112 to R114) -/

/-- An operation that sends each slot its bytes, and faults where it has no address, broadcasts them. -/
theorem broadcastSends_of_send {i : Instr} {f : SlotNo → State → SlotResult} {bytes : SlotNo → List Byte} {s : State}
    (hexec : exec i s = broadcast f s)
    (hsend : ∀ k evs, s.slots[k].bound = true →
      f k (s.emit evs) = .ok (0, (s.emit evs).emit (transaction s k (bytes k))))
    (hfault : ∀ k evs, s.slots[k].bound = false → f k (s.emit evs) = .error (.unboundAddress k (s.emit evs))) :
    BroadcastSends i bytes s := by
  have hP : VisitLeaves f s (fun k => s.slots[k].bound = true)
      (fun l _ t => t = s.emit (l.flatMap fun j => transaction s j (bytes j))) :=
    { cfg := fun h => by rw [h]; rfl
      start := (State.emit_nil s).symm
      next := fun {l any t k} h _ hb => by
        subst h
        refine ⟨_, _, hsend k _ hb, ?_⟩
        rw [State.emit_emit, List.flatMap_append, List.flatMap_singleton] }
  refine ⟨fun hbound => ?_, fun k hk hunbound hbefore => ?_⟩
  · obtain ⟨any, t, hvisit, rfl⟩ := hP.visit_slotOrder hbound
    rw [hexec, broadcast, hvisit]
    rfl
  · obtain ⟨any, t, hvisit, rfl⟩ := hP.visit_slotOrder_fault (fun h _ => h ▸ hfault k _ hunbound) hk hbefore
    rw [hexec, broadcast, hvisit]
    rfl

/-- Settles O27: each slot is sent the byte of the clamped level. -/
theorem gBrightSendsToEveryPresentSlot : Obligations.GBrightSendsToEveryPresentSlot := by
  intro s level
  rw [← clampLevel_eq]
  exact broadcastSends_of_send rfl (fun _ _ hb => brightSlot_of_bound level hb)
    fun _ _ hb => brightSlot_of_unbound level hb

theorem selectRate_le (v : Byte) : (selectRate v).toNat ≤ 3 := by
  unfold selectRate
  split
  · assumption
  · decide

/-- The display-on flag and a rate in bits 2 and 1 do not overlap (R83). -/
theorem blinkByte_eq {r : Byte} (hr : r.toNat ≤ 3) : blinkByte r = 0x81 + 2 * r := by
  have hall : ∀ n : Fin 4, blinkByte (BitVec.ofNat 8 n.val) = 0x81 + 2 * BitVec.ofNat 8 n.val := by decide
  have h := hall ⟨r.toNat, by omega⟩
  rwa [BitVec.ofNat_toNat, BitVec.setWidth_eq] at h

/-- Settles O28: each slot is sent the byte of the selected rate. -/
theorem gBlinkSendsToEveryPresentSlot : Obligations.GBlinkSendsToEveryPresentSlot := by
  intro s rate
  rw [← selectRate_eq, ← blinkByte_eq (selectRate_le rate)]
  exact broadcastSends_of_send rfl (fun _ _ hb => blinkSlot_of_bound rate hb)
    fun _ _ hb => blinkSlot_of_unbound rate hb

/-- Settles O29: each slot is sent its own buffer, which no transaction before it changes. -/
theorem gFlushSendsEveryPresentBuffer : Obligations.GFlushSendsEveryPresentBuffer := by
  intro s
  simp only [flushBytes_eq]
  exact broadcastSends_of_send rfl (fun _ _ hb => flushSlot_of_bound hb) fun _ _ hb => flushSlot_of_unbound hb

/-! ### `G_CLEAR` (R115) -/

/-- `t` is `s` with the display buffers of the slots listed at zero. -/
def ClearedAt (l : List SlotNo) (s t : State) : Prop :=
  ∃ v : Vector Slot 4, t = { s with slots := v } ∧
    ∀ k : SlotNo, v[k] = if k ∈ l then { s.slots[k] with disp := #v[0, 0, 0, 0, 0, 0, 0, 0] } else s.slots[k]

theorem visitLeaves_clear (s : State) : VisitLeaves clearSlot s (fun _ => True) (fun l _ t => ClearedAt l s t) where
  cfg := fun ⟨_, h, _⟩ => by rw [h]
  start := ⟨s.slots, rfl, fun _ => rfl⟩
  next := by
    rintro l any _ k ⟨v, rfl, hv⟩ hk -
    refine ⟨0, _, rfl, _, rfl, fun j => ?_⟩
    have hvk : v[k] = s.slots[k] := (hv k).trans (if_neg hk)
    by_cases hj : j = k
    · subst hj
      simp [hvk]
    · refine (State.setSlot_other _ _ hj).trans ((hv j).trans ?_)
      simp [hj]

/-- Settles O30: a clear needs no address, so every present slot is visited. -/
theorem gClearZeroesEveryPresentBuffer : Obligations.GClearZeroesEveryPresentBuffer := by
  intro s
  obtain ⟨any, t, hvisit, v, rfl, hv⟩ := (visitLeaves_clear s).visit_slotOrder (S := SlotSet.all) fun _ _ => trivial
  refine ⟨v, ?_, fun k => ?_⟩
  · rw [exec, execGClear, broadcast, hvisit]
    rfl
  · rw [hv k]
    simp only [mem_presentIn_all]

end Sys2Proof.Machine
end

