-- ==== Sys2Proof/Proofs/GroupScan.lean ====
section
/-! PROOFS. The group scans (`43_aggregate.md` R111, R116 to R118) and the laws that relate them (R126). -/

namespace Sys2Proof.Machine

/-! ### Slots scanned in order (R101, R111) -/

theorem zipIdx_concat (l : List SlotNo) (k : SlotNo) : (l ++ [k]).zipIdx = l.zipIdx ++ [(k, l.length)] := by
  rw [List.zipIdx_append, Nat.zero_add, List.zipIdx_singleton]

theorem ScannedInOrder.nil (s : State) : ScannedInOrder [] s s := by simp [ScannedInOrder]

/-- After `l.length` reads the next answer is the one of that number (R47). -/
theorem ScannedInOrder.answerAt_zero {l : List SlotNo} {s t : State} (h : ScannedInOrder l s t) :
    t.answerAt 0 = s.answerAt l.length := by
  obtain ⟨-, -, -, hanswers, hdraws, -⟩ := h
  simp only [State.answerAt, hanswers, hdraws, List.getElem?_drop, Nat.add_zero]

/-- One more slot scanned. -/
theorem ScannedInOrder.concat {l : List SlotNo} {s t : State} {k : SlotNo} (h : ScannedInOrder l s t) (hk : k ∉ l) :
    ScannedInOrder (l ++ [k]) s (t.scanned k) := by
  have hanswer := h.answerAt_zero
  obtain ⟨hin, hout, htrace, hanswers, hdraws, hrest⟩ := h
  have hself : (t.scanned k).slots[k] =
      { s.slots[k] with keyPrev := s.slots[k].keyCur, keyCur := s.answerAt l.length } := by
    rw [← hout k hk, ← hanswer]
    exact State.setSlot_same t k _
  have hother {j : SlotNo} (hj : j ≠ k) : (t.scanned k).slots[j] = t.slots[j] := State.setSlot_other t _ hj
  refine ⟨?_, fun j hj => ?_, ?_, ?_, ?_, hrest⟩
  · rw [zipIdx_concat, List.forall_mem_append, List.forall_mem_singleton]
    refine ⟨fun p hp => ?_, hself⟩
    have hpk : p.1 ≠ k := fun e => hk (e ▸ List.fst_mem_of_mem_zipIdx hp)
    rw [hother hpk, hin p hp]
  · rw [List.mem_append, List.mem_singleton, not_or] at hj
    rw [hother hj.2, hout j hj.1]
  · rw [zipIdx_concat, List.flatMap_append, List.flatMap_singleton, ← List.append_assoc, ← htrace, ← hanswer,
      transaction, ← hout k hk]
    rfl
  · rw [List.length_append, List.length_singleton, ← List.tail_drop, ← hanswers]
    rfl
  · rw [List.length_append, List.length_singleton, ← Nat.add_assoc, ← hdraws]
    rfl

theorem someChange_concat (l : List SlotNo) (k : SlotNo) (s : State) :
    someChange (l ++ [k]) s = (someChange l s || s.answerAt l.length != s.slots[k].keyCur) := by
  rw [someChange, zipIdx_concat, List.any_append, List.any_cons, List.any_nil, Bool.or_false]
  rfl

/-- The comparator as the inequality of the buffers. -/
theorem changed_eq_bne (cur prev : KeyBytes) : changed cur prev = (cur != prev) := by
  rw [Bool.eq_iff_iff, changed_iff, bne_iff_ne]

theorem boolResp_beq_one (c : Bool) : (boolResp c == 1#16) = c := by cases c <;> rfl

/-- What the slots `l`, scanned in that order from `s`, leave and answer. -/
def ScanLeaves (s : State) (l : List SlotNo) (any : Bool) (t : State) : Prop :=
  any = someChange l s ∧ ScannedInOrder l s t

theorem ScanLeaves.slot {s t : State} {l : List SlotNo} {any : Bool} {k : SlotNo} (h : ScanLeaves s l any t)
    (hk : k ∉ l) : t.slots[k] = s.slots[k] := by
  obtain ⟨-, -, hout, -⟩ := h
  exact hout k hk

theorem visitLeaves_scan (s : State) : VisitLeaves scanSlot s (fun k => s.slots[k].bound = true) (ScanLeaves s) where
  cfg := fun ⟨_, _, _, _, _, _, hcfg, _⟩ => hcfg
  start := ⟨rfl, .nil s⟩
  next := by
    intro l any t k h hk hb
    have hslot := h.slot hk
    obtain ⟨rfl, hscanned⟩ := h
    refine ⟨_, _, scanSlot_of_bound (by rw [hslot, hb]), ?_, hscanned.concat hk⟩
    rw [boolResp_beq_one, someChange_concat, hscanned.answerAt_zero, hslot, changed_eq_bne]

/-- A scan of a set is the group scan of R111: what is scanned before a slot leaves that slot's bound bit alone. -/
theorem groupScan_of_scanSet {i : Instr} {S : SlotSet} {s : State} (hexec : exec i s = scanSet S scanSlot s) :
    GroupScan i S s := by
  have hP := visitLeaves_scan s
  refine ⟨fun hbound => ?_, fun k hk hunbound hbefore => ?_⟩
  · obtain ⟨any, t, hvisit, rfl, ht⟩ := hP.visit_slotOrder hbound
    refine ⟨t, ht, ?_⟩
    obtain ⟨-, -, -, -, -, -, hresponses, -⟩ := ht
    rw [hexec, scanSet, hvisit, ← hresponses]
    rfl
  · have hfault {l any t} (h : ScanLeaves s l any t) (hkl : k ∉ l) : scanSlot k t = .error (.unboundAddress k t) :=
      scanSlot_of_unbound (by rw [h.slot hkl, hunbound])
    obtain ⟨any, t, hvisit, -, ht⟩ := hP.visit_slotOrder_fault hfault hk hbefore
    exact ⟨t, ht, by rw [hexec, scanSet, hvisit]⟩

/-- Settles O31: the set is all four slots. -/
theorem gScanScansEveryPresentSlot : Obligations.GScanScansEveryPresentSlot :=
  fun _ => groupScan_of_scanSet rfl

/-- Settles O32: the set is the configured primary one. -/
theorem gScanPScansThePrimarySet : Obligations.GScanPScansThePrimarySet :=
  fun _ => groupScan_of_scanSet rfl

/-- Settles O33: the set is the configured secondary one. -/
theorem gScanSScansTheSecondarySet : Obligations.GScanSScansTheSecondarySet :=
  fun _ => groupScan_of_scanSet rfl

/-! ### The answer of a group scan (R126, law 2) -/

/-- A group scan that completes found every present slot of its set bound, for it faults at the first that is not. -/
theorem GroupScan.bound_of_next {i : Instr} {S : SlotSet} {s t : State} (hscan : GroupScan i S s)
    (h : exec i s = .next t) : ∀ k ∈ presentIn S s, s.slots[k].bound = true := by
  obtain ⟨-, hfault⟩ := hscan
  by_contra hnot
  push Not at hnot
  obtain ⟨k, ⟨hk, hunbound⟩, hmin⟩ :=
    wellFounded_lt.has_min {k : SlotNo | k ∈ presentIn S s ∧ s.slots[k].bound ≠ true} hnot
  have hbefore : ∀ j ∈ presentIn S s, j < k → s.slots[j].bound = true :=
    fun j hj hjk => by_contra fun hne => hmin j ⟨hj, hne⟩ hjk
  obtain ⟨u, -, hu⟩ := hfault k hk (Bool.eq_false_iff.2 hunbound) hbefore
  rw [hu] at h
  cases h

/-- A completed group scan answers whether it left some slot of its set with other key bytes. -/
theorem ScannedInOrder.someChange_iff {l : List SlotNo} {s t : State} (h : ScannedInOrder l s t) :
    someChange l s = true ↔ ∃ k ∈ l, t.slots[k].keyCur ≠ s.slots[k].keyCur := by
  obtain ⟨hin, -⟩ := h
  have hkeys : ∀ p ∈ l.zipIdx, t.slots[p.1].keyCur = s.answerAt p.2 := fun p hp => by rw [hin p hp]
  rw [someChange, List.any_eq_true]
  constructor
  · rintro ⟨p, hp, hne⟩
    exact ⟨p.1, List.fst_mem_of_mem_zipIdx hp, by rw [hkeys p hp]; exact bne_iff_ne.1 hne⟩
  · rintro ⟨k, hk, hne⟩
    obtain ⟨n, hn⟩ := List.mem_iff_getElem?.1 hk
    have hn := List.mk_mem_zipIdx_iff_getElem?.2 hn
    exact ⟨(k, n), hn, bne_iff_ne.2 (by rwa [← hkeys _ hn])⟩

theorem boolResp_inj {c d : Bool} : boolResp c = boolResp d ↔ c = d := by cases c <;> cases d <;> decide

/-- Settles O34: the response is the OR of the comparisons, each of the bytes read with those held before. -/
theorem gScanIsTrueIffSomeSlotChanged : Obligations.GScanIsTrueIffSomeSlotChanged := by
  intro s t h
  have hscan : GroupScan .gScan SlotSet.all s := gScanScansEveryPresentSlot s
  have hbound := hscan.bound_of_next h
  obtain ⟨hcomplete, -⟩ := hscan
  obtain ⟨u, hu, hexec⟩ := hcomplete hbound
  obtain rfl : _ = t := Host.Outcome.next.inj (hexec.symm.trans h)
  have hone : truth (someChange (presentIn SlotSet.all s) s) = 1 ↔ someChange (presentIn SlotSet.all s) s = true :=
    boolResp_inj (d := true)
  simp only [List.append_cancel_left_eq, List.cons.injEq, and_true, hone, hu.someChange_iff, mem_presentIn_all]

/-! ### Primary, then secondary (R126, law 3) -/

/-- States that agree but for the responses given. -/
def SameButResponses (s t : State) : Prop := ∃ rs, t = { s with responses := rs }

/-- No command reads the responses given. -/
theorem indistinct_sameButResponses : Indistinct (fun _ => True) SameButResponses where
  cfg := fun ⟨_, h⟩ => by rw [h]
  answer := fun ⟨_, h⟩ => by rw [h]; rfl
  slot := fun ⟨_, h⟩ _ => by rw [h]; exact slotsAgree_refl _
  modify := fun ⟨rs, h⟩ _ _ => ⟨rs, by rw [h]; rfl⟩
  emit := fun _ ⟨rs, h⟩ => ⟨rs, by rw [h]; rfl⟩
  respond := fun r ⟨rs, h⟩ => ⟨rs ++ [r], by rw [h]; rfl⟩
  draw := fun ⟨rs, h⟩ => ⟨rs, by rw [h]; rfl⟩

section
variable {S : SlotSet} {ks : List SlotNo} {any b : Bool} {s t : State}

theorem visit_scan_keeps (h : visit S scanSlot ks any s = .ok (b, t)) : t.cfg = s.cfg ∧ t.responses = s.responses := by
  obtain ⟨hcfg, hresponses, -⟩ := (visit_actions acts_scan h).keeps
  exact ⟨hcfg, hresponses⟩

/-- A visit of scans does the same whatever responses were given before. -/
theorem visit_scan_withResponses (h : visit S scanSlot ks any s = .ok (b, t)) (rs : List Resp) :
    visit S scanSlot ks any { s with responses := rs } = .ok (b, { t with responses := rs }) := by
  have hscan (k : SlotNo) : Respects SameButResponses k scanSlot := indistinct_sameButResponses.respects_scan trivial
  have hrel := indistinct_sameButResponses.visit_related hscan (S := S) (any := any) ks (s := s) ⟨rs, rfl⟩
  rw [h] at hrel
  generalize hq : visit S scanSlot ks any { s with responses := rs } = q at hrel
  cases hrel with
  | ok _ hsame =>
    obtain ⟨rs', rfl⟩ := hsame
    obtain ⟨-, rfl⟩ := visit_scan_keeps hq
    rfl

end

section
variable {S S' : SlotSet} {f : SlotNo → State → SlotResult} {ks : List SlotNo} {s : State}

/-- A visit depends on the set only in the slots it lists. -/
theorem visit_congr (h : ∀ k ∈ ks, S[k] = S'[k]) (any : Bool) : visit S f ks any s = visit S' f ks any s := by
  induction ks generalizing any s with
  | nil => rfl
  | cons k ks ih =>
    obtain ⟨hk, hks⟩ := List.forall_mem_cons.1 h
    simp only [visit, hk, ih hks]

theorem visit_of_disjoint (h : ∀ k ∈ ks, S[k] = false) (any : Bool) : visit S f ks any s = .ok (any, s) := by
  induction ks with
  | nil => rfl
  | cons k ks ih =>
    obtain ⟨hk, hks⟩ := List.forall_mem_cons.1 h
    rw [visit_cons_of_skipped (by rw [hk, Bool.false_and]), ih hks]

/-- The truth value a visit starts with is OR-ed to its own. -/
theorem visit_or (any c : Bool) :
    visit S f ks (any || c) s = (visit S f ks c s).map fun p => (any || p.1, p.2) := by
  induction ks generalizing c s with
  | nil => rfl
  | cons k ks ih =>
    cases hk : S[k] && s.present k with
    | false => rw [visit_cons_of_skipped hk, visit_cons_of_skipped hk, ih]
    | true =>
      cases hf : f k s with
      | ok p => rw [visit_cons_of_ok hk hf, visit_cons_of_ok hk hf, Bool.or_assoc, ih]
      | error e => rw [visit_cons_of_error hk hf, visit_cons_of_error hk hf]; rfl

theorem visit_or_eq_ok {any b : Bool} {t : State} :
    visit S f ks any s = .ok (b, t) ↔ ∃ c, visit S f ks false s = .ok (c, t) ∧ b = (any || c) := by
  have hor := visit_or (S := S) (f := f) (ks := ks) (s := s) any false
  rw [Bool.or_false] at hor
  rw [hor]
  cases visit S f ks false s with
  | error e => simp [Except.map]
  | ok p =>
    simp only [Except.map, Except.ok.injEq, Prod.ext_iff]
    exact ⟨fun ⟨hb, ht⟩ => ⟨p.1, ⟨rfl, ht⟩, hb.symm⟩, fun ⟨c, ⟨hc, ht⟩, hb⟩ => ⟨hc ▸ hb.symm, ht⟩⟩

theorem visit_append_eq_ok {ks' : List SlotNo} {any b : Bool} {t : State} :
    visit S f (ks ++ ks') any s = .ok (b, t) ↔
      ∃ c u, visit S f ks any s = .ok (c, u) ∧ visit S f ks' c u = .ok (b, t) := by
  rw [visit_append]
  cases visit S f ks any s with
  | error e => simp [Except.bind]
  | ok p => exact ⟨fun h => ⟨p.1, p.2, rfl, h⟩, fun ⟨c, u, hp, h⟩ => by cases hp; exact h⟩

end

/-- The slots of the primary set come first, then those of the secondary set (D18). -/
theorem slotOrder_eq_append : slotOrder = [0, 1] ++ [2, 3] := rfl

section
variable {f : SlotNo → State → SlotResult} {s : State}

/-- A visit of the primary set is one of slots 0 and 1 (R117). -/
theorem visit_primary : visit SlotSet.primaryValue f slotOrder false s = visit SlotSet.all f [0, 1] false s := by
  rw [slotOrder_eq_append, visit_append, visit_congr (S' := SlotSet.all) (ks := [0, 1]) (by decide)]
  simp only [visit_of_disjoint (S := SlotSet.primaryValue) (ks := [2, 3]) (by decide)]
  cases visit SlotSet.all f [0, 1] false s <;> rfl

/-- A visit of the secondary set is one of slots 2 and 3 (R118). -/
theorem visit_secondary : visit SlotSet.secondaryValue f slotOrder false s = visit SlotSet.all f [2, 3] false s := by
  rw [slotOrder_eq_append, visit_append, visit_of_disjoint (by decide)]
  exact visit_congr (by decide) false

end

/-- A completed scan of a set whose response is known: the visit with that answer. -/
theorem scanSet_next_response {S : SlotSet} {s t : State} {c : Bool} :
    scanSet S scanSlot s = .next t ∧ t.responses = s.responses ++ [truth c] ↔
      ∃ x, visit S scanSlot slotOrder false s = .ok (c, x) ∧ t = x.respond (truth c) := by
  rw [scanSet_eq_next]
  constructor
  · rintro ⟨⟨any, x, hx, rfl⟩, hresponses⟩
    obtain ⟨-, hkeep⟩ := visit_scan_keeps hx
    rw [State.respond_responses, hkeep, List.append_cancel_left_eq, List.singleton_inj, truth_eq, boolResp_inj] at hresponses
    subst hresponses
    exact ⟨x, hx, rfl⟩
  · rintro ⟨x, hx, rfl⟩
    obtain ⟨-, hkeep⟩ := visit_scan_keeps hx
    exact ⟨⟨c, x, hx, rfl⟩, by rw [State.respond_responses, hkeep]⟩

section
variable {s t : State} {c : Bool}

theorem exec_gScan_eq_next : exec .gScan s = .next t ↔
    ∃ c d x y, visit SlotSet.all scanSlot [0, 1] false s = .ok (c, x) ∧
      visit SlotSet.all scanSlot [2, 3] false x = .ok (d, y) ∧ t = y.respond (truth (c || d)) := by
  rw [exec, execGScan, scanSet_eq_next, slotOrder_eq_append]
  constructor
  · rintro ⟨any, y, hvisit, rfl⟩
    obtain ⟨c, x, hx, hy⟩ := visit_append_eq_ok.1 hvisit
    obtain ⟨d, hd, rfl⟩ := visit_or_eq_ok.1 hy
    exact ⟨c, d, x, y, hx, hd, rfl⟩
  · rintro ⟨c, d, x, y, hx, hy, rfl⟩
    exact ⟨_, y, visit_append_eq_ok.2 ⟨c, x, hx, visit_or_eq_ok.2 ⟨d, hy, rfl⟩⟩, rfl⟩

theorem exec_gScanP_next_response (hset : s.cfg.primary = SlotSet.primaryValue) :
    exec .gScanP s = .next t ∧ t.responses = s.responses ++ [truth c] ↔
      ∃ x, visit SlotSet.all scanSlot [0, 1] false s = .ok (c, x) ∧ t = x.respond (truth c) := by
  rw [exec, execGScanP, hset, scanSet_next_response, visit_primary]

theorem exec_gScanS_next_response (hset : s.cfg.secondary = SlotSet.secondaryValue) :
    exec .gScanS s = .next t ∧ t.responses = s.responses ++ [truth c] ↔
      ∃ x, visit SlotSet.all scanSlot [2, 3] false s = .ok (c, x) ∧ t = x.respond (truth c) := by
  rw [exec, execGScanS, hset, scanSet_next_response, visit_secondary]

end

/-- Settles O35: the visit of all slots is the two visits in a row, and no scan reads the response given between them. -/
theorem gScanIsPrimaryThenSecondary : Obligations.GScanIsPrimaryThenSecondary := by
  intro s hprimary hsecondary t
  rw [exec_gScan_eq_next]
  constructor
  · rintro ⟨c, d, x, y, hx, hy, rfl⟩
    obtain ⟨hcfg, hxresponses⟩ := visit_scan_keeps hx
    obtain ⟨-, hyresponses⟩ := visit_scan_keeps hy
    obtain ⟨hP, hPresponse⟩ := (exec_gScanP_next_response hprimary).2 ⟨x, hx, rfl⟩
    obtain ⟨hS, hSresponse⟩ := (exec_gScanS_next_response (s := x.respond (truth c)) (hcfg ▸ hsecondary)).2
      ⟨_, visit_scan_withResponses hy _, rfl⟩
    refine ⟨_, _, c, d, hP, hPresponse, hS, hSresponse, ?_⟩
    rw [State.respond, hyresponses, hxresponses]
    rfl
  · rintro ⟨u, v, c, d, hP, hPresponse, hS, hSresponse, rfl⟩
    obtain ⟨x, hx, rfl⟩ := (exec_gScanP_next_response hprimary).1 ⟨hP, hPresponse⟩
    obtain ⟨hcfg, hxresponses⟩ := visit_scan_keeps hx
    obtain ⟨y, hy, rfl⟩ := (exec_gScanS_next_response (s := x.respond (truth c)) (hcfg ▸ hsecondary)).1 ⟨hS, hSresponse⟩
    refine ⟨c, d, x, _, hx, visit_scan_withResponses hy x.responses, ?_⟩
    rw [State.respond, hxresponses]
    rfl

end Sys2Proof.Machine
end

