-- ==== Sys2Proof/Proofs/Routed.lean ====
section
/-! PROOFS. The routed commands (`43_aggregate.md` R110, R119 to R125): each is its `D_` form on the slot and the local
index that its flat index names, so what the `D_` forms do is what they do. -/

namespace Sys2Proof.Machine

/-! ### The partitioning rule (R32, R110) -/

/-- The flat index of local index `i` of slot `k`. -/
def flatIndex (k : SlotNo) (i : LocalIdx) : FlatIdx := ⟨16 * k.val + i.val, by omega⟩

theorem flatSlot_flatIndex (k : SlotNo) (i : LocalIdx) : flatSlot (flatIndex k i) = k :=
  Fin.ext (by simp only [flatSlot, flatIndex]; omega)

theorem flatLocal_flatIndex (k : SlotNo) (i : LocalIdx) : flatLocal (flatIndex k i) = i :=
  Fin.ext (by simp only [flatLocal, flatIndex]; omega)

section
variable {s : State} (f : LocalIdx → SlotNo → State → SlotResult)

/-- On a present slot a routed command is the per-slot command at the slot and the local index (R110). -/
theorem route_eq_perSlot {k : SlotNo} (hp : s.cfg.present[k] = true) (i : LocalIdx) :
    route (BitVec.ofNat 8 (16 * k.val + i.val)) f s = perSlot (slotByte k) (atLocal (localByte i) f) s := by
  have hroute := route_of_some (flatOperand_flatByte (flatIndex k i)) f s
  rw [flatSlot_flatIndex, flatLocal_flatIndex, if_pos (show s.present k = true from hp)] at hroute
  rw [perSlot_atLocal_of_present hp]
  exact hroute

/-- A routed command whose flat index is out of range or names an absent slot is absorbed (R110). -/
theorem route_of_out_or_dead {b : Byte} (h : 63 < b.toNat ∨ DeadSlot s (b / 16)) :
    route b f s = .next (s.respond 0) := by
  cases hb : flatOperand b with
  | none => rw [route_of_none hb, absorb]
  | some n =>
    have hn := flatOperand_eq_some.1 hb
    have hdead := h.resolve_left (by omega)
    have hslot : (b / 16).toNat = (flatSlot n).val := by rw [BitVec.toNat_udiv, hn]; rfl
    have habsent : ¬ s.present (flatSlot n) = true := Bool.eq_false_iff.1 (hdead (flatSlot n) hslot)
    rw [route_of_some hb, if_neg habsent, absorb]

end

/-! ### The commands -/

/-- Settles O36: the seven commands are routed by one rule. -/
theorem routedCommandsAreThePerSlotCommands : Obligations.RoutedCommandsAreThePerSlotCommands := by
  refine fun s => ⟨fun k i hp => ?_, fun b h => ?_⟩
  · have routed (f : LocalIdx → SlotNo → State → SlotResult) := route_eq_perSlot f hp i
    exact ⟨routed _, routed _, routed _, routed _, routed _, routed _, routed _⟩
  · have absorbed (f : LocalIdx → SlotNo → State → SlotResult) : route b f s = .next (s.respond 0) :=
      route_of_out_or_dead f h
    exact ⟨absorbed _, absorbed _, absorbed _, absorbed _, absorbed _, absorbed _, absorbed _⟩

/-- Settles O38: the two writes are `D_SETLED` and `D_CLRLED` on the slot the flat index names. -/
theorem routedWritesChangeOneBit : Obligations.RoutedWritesChangeOneBit := by
  intro s
  obtain ⟨hrouted, habsorbed⟩ := routedCommandsAreThePerSlotCommands s
  refine ⟨fun k i hp => ?_, fun b h => ?_⟩
  · obtain ⟨-, hsetLed, hclrLed, -⟩ := hrouted k i hp
    obtain ⟨d, hset, hd⟩ := (dSetLedSetsOneBit s).1 k i hp
    obtain ⟨e, hclr, he⟩ := (dClrLedClearsOneBit s).1 k i hp
    exact ⟨d, e, hsetLed.trans hset, hclrLed.trans hclr, fun w n => ⟨hd w n, he w n⟩⟩
  · obtain ⟨-, hset, hclr, -⟩ := habsorbed b h
    exact ⟨hset, hclr⟩

/-- Settles O37: the five queries are the `D_` queries on the slot the flat index names. -/
theorem routedQueriesAnswerTheirBits : Obligations.RoutedQueriesAnswerTheirBits := by
  intro s
  obtain ⟨hrouted, habsorbed⟩ := routedCommandsAreThePerSlotCommands s
  refine ⟨fun k i hp => ?_, fun b h => ?_⟩
  · obtain ⟨hisLed, -, -, hisPressed, hwasPressed, hjustPressed, hjustReleased⟩ := hrouted k i hp
    obtain ⟨hcur, hprev, hpressed, hreleased⟩ := (dKeyPredicatesAnswerTheirBits s).1 k i hp
    exact ⟨hisLed.trans ((dIsLedAnswersItsBit s).1 k i hp), hisPressed.trans hcur, hwasPressed.trans hprev,
      hjustPressed.trans hpressed, hjustReleased.trans hreleased⟩
  · obtain ⟨hisLed, -, -, hkeys⟩ := habsorbed b h
    exact ⟨hisLed, hkeys⟩

end Sys2Proof.Machine
end

