-- ==== Sys2Proof/Proofs/Coordinate.lean ====
section
/-! PROOFS. The coordinate look-ups (`44_coordinate.md`): what `XY2I` and `I2XY` answer is their response function, so each
statement is a fact about a table entry or a marker. -/

namespace Sys2Proof.Machine

/-! ### The responses (R141, R142) -/

theorem xy2iResp_coordByte (cfg : Config) (x y : Coord) :
    xy2iResp cfg (coordByte x) (coordByte y) = BitVec.ofNat 16 cfg.xy2i[x][y].val := by
  rw [xy2iResp, coordOperand_coordByte, coordOperand_coordByte]

theorem xy2iResp_of_out (cfg : Config) {x y : Byte} (h : 7 < x.toNat ∨ 7 < y.toNat) : xy2iResp cfg x y = 0x00FF := by
  rw [← coordOperand_eq_none, ← coordOperand_eq_none] at h
  unfold xy2iResp
  split
  next i j hx hy => simp [hx, hy] at h
  next => rfl

/-- The high and the low byte of a pair, as a number (R142). -/
theorem pairResp_toNat (x y : Byte) : (pairResp x y).toNat = 256 * x.toNat + y.toNat := by
  have hx := x.isLt
  have hhigh : (x.zeroExtend 16 <<< 8).toNat = 2 ^ 8 * x.toNat := by
    rw [BitVec.toNat_shiftLeft, BitVec.toNat_setWidth, Nat.shiftLeft_eq]
    omega
  have hlow : (y.zeroExtend 16).toNat = y.toNat := BitVec.toNat_setWidth_of_le (by decide)
  rw [pairResp, BitVec.toNat_or, hhigh, hlow, ← Nat.two_pow_add_eq_or_of_lt y.isLt]

theorem pairResp_coordByte (x y : Coord) :
    pairResp (coordByte x) (coordByte y) = BitVec.ofNat 16 (256 * x.val + y.val) := by
  apply BitVec.eq_of_toNat_eq
  rw [pairResp_toNat, coordByte_toNat, coordByte_toNat, BitVec.toNat_ofNat]
  omega

theorem i2xyResp_flatByte (cfg : Config) (k : FlatIdx) :
    i2xyResp cfg (flatByte k) = BitVec.ofNat 16 (256 * cfg.i2xy[k].1.val + cfg.i2xy[k].2.val) := by
  rw [i2xyResp, flatOperand_flatByte]
  exact pairResp_coordByte _ _

theorem i2xyResp_of_out (cfg : Config) {b : Byte} (h : 63 < b.toNat) : i2xyResp cfg b = 0xFFFF := by
  rw [i2xyResp, flatOperand_eq_none.2 h]
  rfl

/-! ### The commands (R140) -/

theorem answers_xy2i_iff {x y : Byte} {s : State} {r : Resp} : Answers (.xy2i x y) s r ↔ xy2iResp s.cfg x y = r :=
  answers_iff_of_exec rfl r

theorem answers_i2xy_iff {b : Byte} {s : State} {r : Resp} : Answers (.i2xy b) s r ↔ i2xyResp s.cfg b = r :=
  answers_iff_of_exec rfl r

/-- Settles O39: the table entry where both operands name a coordinate, the marker where one does not. -/
theorem xy2iAnswersTheIndexOrTheMarker : Obligations.Xy2iAnswersTheIndexOrTheMarker := fun s =>
  ⟨fun x y => answers_xy2i_iff.2 (xy2iResp_coordByte s.cfg x y), fun _ _ h => answers_xy2i_iff.2 (xy2iResp_of_out s.cfg h)⟩

/-- Settles O40: the packed table entry where the operand names a flat index, the sentinel where it does not. -/
theorem i2xyAnswersThePairOrTheSentinel : Obligations.I2xyAnswersThePairOrTheSentinel := fun s =>
  ⟨fun k => answers_i2xy_iff.2 (i2xyResp_flatByte s.cfg k), fun _ h => answers_i2xy_iff.2 (i2xyResp_of_out s.cfg h)⟩

/-- Settles O41: the witness of each round trip is the first table's entry, and `CoordTablesOk` says what the other table
holds there (R39). -/
theorem coordinateLookUpsAreInverse : Obligations.CoordinateLookUpsAreInverse := by
  rintro s ⟨hindex, hpair⟩
  obtain ⟨hxy2i, hmarker⟩ := xy2iAnswersTheIndexOrTheMarker s
  obtain ⟨hi2xy, hsentinel⟩ := i2xyAnswersThePairOrTheSentinel s
  refine ⟨fun x y => ⟨s.cfg.xy2i[x][y], hxy2i x y, ?_⟩,
    fun k => ⟨s.cfg.i2xy[k].1, s.cfg.i2xy[k].2, hi2xy k, ?_⟩, hsentinel 255 (by decide), hmarker 255 255 (by decide)⟩
  · have hanswer := hi2xy s.cfg.xy2i[x][y]
    rwa [hindex x y] at hanswer
  · have hanswer := hxy2i s.cfg.i2xy[k].1 s.cfg.i2xy[k].2
    rwa [hpair k] at hanswer

end Sys2Proof.Machine
end

