-- ==== Sys2Proof/Proofs/Exceptions.lean ====
section
/-! PROOFS. Faults, completion and refusals (`60_exceptions.md`). What a command answers is said once: it completes, or it
faults at the first unbound slot it reaches; the three statements are read off that. -/

namespace Sys2Proof.Machine

/-! ### What a command that reaches some slots can answer (R150, R156) -/

/-- A command from `s` that reaches the slots of `Reach` completes, all of them bound, or faults at the first one that is
not, which it leaves alone. -/
inductive FaultsAtFirstUnbound (Reach : SlotNo → Prop) (s : State) : Host.Outcome State Fault Refusal → Prop
  | next (t : State) (bound : ∀ k, Reach k → s.slots[k].bound = true) : FaultsAtFirstUnbound Reach s (.next t)
  | fault (k : SlotNo) (t : State) (reached : Reach k) (unbound : s.slots[k].bound = false)
      (first : ∀ j, j < k → Reach j → s.slots[j].bound = true) (unchanged : t.slots[k] = s.slots[k]) :
      FaultsAtFirstUnbound Reach s (.fault (.unboundAddress k t))

/-- The outcome `o` is a next state. -/
def Completes (o : Host.Outcome State Fault Refusal) : Prop := ∃ t, o = .next t

/-- Of the reached slots, all are bound, or one is the first that is not. -/
theorem bound_or_first_unbound (Reach : SlotNo → Prop) (s : State) :
    (∀ k, Reach k → s.slots[k].bound = true) ∨
      ∃ k, Reach k ∧ s.slots[k].bound = false ∧ ∀ j, j < k → Reach j → s.slots[j].bound = true := by
  by_cases h : ∃ k, Reach k ∧ s.slots[k].bound = false
  · obtain ⟨k, ⟨hreach, hunbound⟩, hmin⟩ := wellFounded_lt.has_min {k | Reach k ∧ s.slots[k].bound = false} h
    exact .inr ⟨k, hreach, hunbound, fun j hlt hj => Bool.of_not_eq_false fun hb => hmin j ⟨hj, hb⟩ hlt⟩
  · exact .inl fun k hk => Bool.of_not_eq_false fun hb => h ⟨k, hk, hb⟩

section
variable {Reach : SlotNo → Prop} {s : State} {o : Host.Outcome State Fault Refusal}

theorem FaultsAtFirstUnbound.of_cases (hnext : (∀ k, Reach k → s.slots[k].bound = true) → Completes o)
    (hfault : ∀ k, Reach k → s.slots[k].bound = false → (∀ j, j < k → Reach j → s.slots[j].bound = true) →
      ∃ t, o = .fault (.unboundAddress k t) ∧ t.slots[k] = s.slots[k]) : FaultsAtFirstUnbound Reach s o := by
  rcases bound_or_first_unbound Reach s with hbound | ⟨k, hreach, hunbound, hfirst⟩
  · obtain ⟨t, rfl⟩ := hnext hbound
    exact .next t hbound
  · obtain ⟨t, rfl, hsame⟩ := hfault k hreach hunbound hfirst
    exact .fault k t hreach hunbound hfirst hsame

/-- A command that reaches no slot and completes. -/
theorem Completes.faultsAtFirstUnbound (h : Completes o) (hnone : ∀ k, ¬ Reach k) : FaultsAtFirstUnbound Reach s o := by
  obtain ⟨t, rfl⟩ := h
  exact .next t fun k hk => absurd hk (hnone k)

end

/-! ### The delegation schemes (R66, R110, R111) -/

section
variable {s : State}

/-- A per-slot operation that completes on every slot, as a command. -/
theorem perSlot_completes {f : SlotNo → State → SlotResult} (hf : ∀ k, ∃ c t, f k s = .ok (c, t)) (a : Byte) :
    Completes (perSlot a f s) := by
  cases hl : liveSlot s a with
  | none => exact ⟨_, perSlot_of_dead hl f⟩
  | some k =>
    obtain ⟨c, t, hk⟩ := hf k
    exact ⟨t.respond c, by rw [perSlot_of_live hl, hk, finish]⟩

section
variable {f : LocalIdx → SlotNo → State → SlotResult} (hf : ∀ l k, ∃ c t, f l k s = .ok (c, t))
include hf

theorem perSlot_atLocal_completes (a b : Byte) : Completes (perSlot a (atLocal b f) s) := by
  refine perSlot_completes (fun k => ?_) a
  cases hb : localOperand b with
  | none => exact ⟨0, s, atLocal_of_none hb f k s⟩
  | some l => rw [atLocal_of_some hb]; exact hf l k

theorem route_completes (b : Byte) : Completes (route b f s) := by
  cases hb : flatOperand b with
  | none => exact ⟨_, route_of_none hb f s⟩
  | some n =>
    rw [route_of_some hb]
    split
    · obtain ⟨c, t, hn⟩ := hf (flatLocal n) (flatSlot n)
      exact ⟨t.respond c, by rw [hn, finish]⟩
    · exact ⟨_, rfl⟩

end

/-- A per-slot command whose operation needs the slot's address and nothing else reaches the live slot of its operand. -/
theorem perSlot_faultsAtFirstUnbound {f : SlotNo → State → SlotResult} (a : Byte)
    (hbound : ∀ k, s.slots[k].bound = true → ∃ c t, f k s = .ok (c, t))
    (hunbound : ∀ k, s.slots[k].bound = false → f k s = .error (.unboundAddress k s)) :
    FaultsAtFirstUnbound (fun k => a = slotByte k ∧ s.cfg.present[k] = true) s (perSlot a f s) := by
  refine .of_cases (fun hall => ?_) ?_
  · rcases dead_or_live s a with hdead | ⟨k, rfl, hp⟩
    · exact ⟨_, perSlot_of_dead (deadSlot_iff.1 hdead) f⟩
    · obtain ⟨c, t, hk⟩ := hbound k (hall k ⟨rfl, hp⟩)
      exact ⟨t.respond c, by rw [perSlot_of_live (liveSlot_slotByte hp), hk, finish]⟩
  · rintro k ⟨rfl, hp⟩ hb -
    exact ⟨s, by rw [perSlot_of_live (liveSlot_slotByte hp), hunbound k hb, finish], rfl⟩

/-- A broadcast that sends reaches every present slot, and sends change no slot. -/
theorem BroadcastSends.faultsAtFirstUnbound {i : Instr} {bytes : SlotNo → List Byte} (h : BroadcastSends i bytes s) :
    FaultsAtFirstUnbound (fun k => s.cfg.present[k] = true) s (exec i s) := by
  obtain ⟨hnext, hfault⟩ := h
  simp only [mem_presentIn_all] at hnext hfault
  exact .of_cases (fun hall => ⟨_, hnext hall⟩) fun k hk hb hfirst =>
    ⟨_, hfault k hk hb fun j hj hlt => hfirst j hlt hj, rfl⟩

/-- A group scan reaches the present slots of its set, and the scans before a slot leave that slot alone. -/
theorem GroupScan.faultsAtFirstUnbound {i : Instr} {S : SlotSet} (h : GroupScan i S s)
    (hreach : ∀ {k}, k ∈ presentIn S s ↔ Reaches i s k) : FaultsAtFirstUnbound (Reaches i s) s (exec i s) := by
  obtain ⟨hnext, hfault⟩ := h
  simp only [hreach] at hnext hfault
  refine .of_cases (fun hall => ?_) fun k hk hb hfirst => ?_
  · obtain ⟨t, -, ht⟩ := hnext hall
    exact ⟨_, ht⟩
  · obtain ⟨t, ⟨-, hothers, -⟩, ht⟩ := hfault k hk hb fun j hj hlt => hfirst j hlt hj
    exact ⟨t, ht, hothers k (by simp)⟩

end

/-! ### `exec` -/

/-- What a command answers: the transport commands of R156 fault at the first unbound slot they reach, every other command
reaches none and completes. -/
theorem exec_faultsAtFirstUnbound (i : Instr) (s : State) : FaultsAtFirstUnbound (Reaches i s) s (exec i s) := by
  cases i with
  | dBright a b =>
    exact perSlot_faultsAtFirstUnbound a (fun _ h => ⟨_, _, brightSlot_of_bound b h⟩) fun _ => brightSlot_of_unbound b
  | dBlink a b =>
    exact perSlot_faultsAtFirstUnbound a (fun _ h => ⟨_, _, blinkSlot_of_bound b h⟩) fun _ => blinkSlot_of_unbound b
  | dFlush a =>
    exact perSlot_faultsAtFirstUnbound a (fun _ h => ⟨_, _, flushSlot_of_bound h⟩) fun _ => flushSlot_of_unbound
  | dScan a =>
    exact perSlot_faultsAtFirstUnbound a (fun _ h => ⟨_, _, scanSlot_of_bound h⟩) fun _ => scanSlot_of_unbound
  | gBright b => exact (gBrightSendsToEveryPresentSlot s b).faultsAtFirstUnbound
  | gBlink b => exact (gBlinkSendsToEveryPresentSlot s b).faultsAtFirstUnbound
  | gFlush => exact (gFlushSendsEveryPresentBuffer s).faultsAtFirstUnbound
  | gScan => exact (gScanScansEveryPresentSlot s).faultsAtFirstUnbound mem_presentIn_all
  | gScanP => exact (gScanPScansThePrimarySet s).faultsAtFirstUnbound mem_presentIn
  | gScanS => exact (gScanSScansTheSecondarySet s).faultsAtFirstUnbound mem_presentIn
  | dInit a b c =>
    exact (perSlot_completes (fun k => ⟨_, _, initSlot_eq b c k s⟩) a).faultsAtFirstUnbound fun _ => id
  | dClear a => exact (perSlot_completes (fun _ => ⟨_, _, rfl⟩) a).faultsAtFirstUnbound fun _ => id
  | dIsLed a b | dSetLed a b | dClrLed a b | dIsPressed a b | dWasPressed a b | dJustPressed a b | dJustReleased a b =>
    exact (perSlot_atLocal_completes (fun _ _ => ⟨_, _, rfl⟩) a b).faultsAtFirstUnbound fun _ => id
  | gIsLed b | gSetLed b | gClrLed b | gIsPressed b | gWasPressed b | gJustPressed b | gJustReleased b =>
    exact (route_completes (fun _ _ => ⟨_, _, rfl⟩) b).faultsAtFirstUnbound fun _ => id
  | gClear =>
    obtain ⟨v, hclear, -⟩ := gClearZeroesEveryPresentBuffer s
    exact Completes.faultsAtFirstUnbound ⟨_, hclear⟩ fun _ => id
  | xy2i x y => exact Completes.faultsAtFirstUnbound ⟨_, rfl⟩ fun _ => id
  | i2xy b => exact Completes.faultsAtFirstUnbound ⟨_, rfl⟩ fun _ => id

theorem exec_ne_refused (i : Instr) (s : State) (r : Refusal) : exec i s ≠ .refused r := by
  intro h
  have hcases := exec_faultsAtFirstUnbound i s
  rw [h] at hcases
  cases hcases

/-- Settles O9: the slot of the fault is the first unbound one, and with a reached slot unbound no command completes. -/
theorem faultsExactlyAtTheFirstUnboundSlotReached : Obligations.FaultsExactlyAtTheFirstUnboundSlotReached := by
  intro i s
  have hcases := exec_faultsAtFirstUnbound i s
  generalize exec i s = o at hcases
  cases hcases with
  | next t hbound =>
    refine ⟨fun _ => nofun, fun k hreach hunbound => ?_⟩
    cases (hbound k hreach).symm.trans hunbound
  | fault k t hreach hunbound hfirst hsame =>
    refine ⟨fun f h => ?_, fun _ _ _ => ⟨_, rfl⟩⟩
    cases h
    exact ⟨k, t, rfl, hreach, hunbound, hfirst, hsame⟩

/-- Settles O10: with every reached slot bound there is nothing to fault at, and a completed command gives one response. -/
theorem everyCommandCompletesWithOneResponse : Obligations.EveryCommandCompletesWithOneResponse := by
  intro i s hbound
  have hcases := exec_faultsAtFirstUnbound i s
  generalize hexec : exec i s = o at hcases
  cases hcases with
  | next t _ =>
    obtain ⟨-, ⟨r, hr⟩, -⟩ := exec_keeps hexec
    exact ⟨t, r, rfl, hr⟩
  | fault k t hreach hunbound _ _ => cases (hbound k hreach).symm.trans hunbound

/-! ### The refusals of the step (R157) -/

theorem wellFormed_eq_false_iff {c : Config} :
    c.wellFormed = false ↔ ¬ c.LedLutOk ∨ ¬ c.KeyLutOk ∨ ¬ c.CoordTablesOk ∨ ¬ c.SomePresent := by
  simp only [← Bool.not_eq_true, wellFormed_iff, ← not_and_or]

/-- Under a well-formed configuration the step refuses two words at once and a word without a command, by name. -/
theorem step_eq_refused_iff {s : State} (hwf : s.cfg.wellFormed = true) {r : Refusal} :
    step s = .refused r ↔
      ((∃ w₁ w₂ rest, s.pending = .concurrent w₁ w₂ :: rest) ∧ r = .concurrentAccess) ∨
      ∃ w rest, s.pending = .command w :: rest ∧ (∀ i, decode w ≠ .ok i) ∧ r = .reservedOpcode w := by
  rw [step, fetch_of_wellFormed hwf]
  cases hp : s.pending with
  | nil => simp
  | cons x rest =>
    cases x with
    | concurrent w₁ w₂ => simp [eq_comm]
    | command w =>
      obtain ⟨i, hdecode, -⟩ | ⟨herror, -⟩ := decode_cases w
      · simp [offered_of_ok hdecode, exec_ne_refused, hdecode]
      · simp [offered_of_error herror, herror, eq_comm]

/-- Settles O7: an ill-formed configuration is refused first, then what the command interface finds; no command refuses. -/
theorem refusalsNameTheirCause : Obligations.RefusalsNameTheirCause := by
  refine ⟨fun s r => ?_, exec_ne_refused⟩
  rw [← wellFormed_eq_false_iff]
  cases hwf : s.cfg.wellFormed with
  | false => simp [step_of_illFormed hwf, eq_comm]
  | true => simp [step_eq_refused_iff hwf]

end Sys2Proof.Machine
end

