-- ==== Sys2Proof/Proofs/SafeRuns.lean ====
section
/-! PROOFS. Runs that never stop (`70_reset_and_hazards.md` R172). Once every present slot is bound, every command completes,
and no command unbinds a slot; so a host list of defined commands is stepped through without a fault or a refusal. -/

namespace Sys2Proof.Machine

/-- Settles O8: the command interface finds nothing. -/
theorem unitWaitsWithoutACommand : Obligations.UnitWaitsWithoutACommand := by
  intro s hwf hpending
  rw [step, fetch_of_wellFormed hwf, hpending]

/-! ### Booted states (R172) -/

section
variable {i : Instr} {s t : State} {k : SlotNo}

/-- A command reaches present slots only (R66, R111). -/
theorem present_of_reaches (h : Reaches i s k) : s.cfg.present[k] = true := by
  cases i with
  | dBright a b | dBlink a b | dFlush a | dScan a | gScanP | gScanS =>
    obtain ⟨-, hpresent⟩ := h
    exact hpresent
  | gBright b | gBlink b | gFlush | gScan => exact h
  | dInit a b c | dClear a | dIsLed a b | dSetLed a b | dClrLed a b | dIsPressed a b | dWasPressed a b | dJustPressed a b
  | dJustReleased a b | gClear | gIsLed b | gSetLed b | gClrLed b | gIsPressed b | gWasPressed b | gJustPressed b
  | gJustReleased b | xy2i x y | i2xy b => cases h

/-- No effect unbinds a slot. -/
theorem SlotEffect.bound {cfg : Config} {x y : Slot} (h : SlotEffect i cfg k x y) (hx : x.bound = true) :
    y.bound = true := by
  cases h with
  | bind _ => rfl
  | scan _ _ _ => exact hx
  | display _ _ => exact hx

theorem Booted.slotsAfter (hs : Booted s) (hcfg : t.cfg = s.cfg) (h : SlotsAfter i s t) : Booted t := by
  intro k hpresent
  rw [hcfg] at hpresent
  rcases h k with hsame | ⟨-, heff⟩
  · rw [hsame]; exact hs k hpresent
  · exact heff.bound (hs k hpresent)

/-- Every command completes from a booted state, and leaves one. -/
theorem Booted.exec (hs : Booted s) (i : Instr) :
    ∃ t, exec i s = .next t ∧ Booted t ∧ t.cfg = s.cfg ∧ t.pending = s.pending := by
  obtain ⟨t, r, hexec, -⟩ := everyCommandCompletesWithOneResponse i s fun k hk => hs k (present_of_reaches hk)
  obtain ⟨hcfg, -, -, hpending⟩ := exec_keeps hexec
  exact ⟨t, hexec, hs.slotsAfter hcfg (exec_slotsAfter hexec), hcfg, hpending⟩

end

/-- Settles O56: the step waits, or runs the command presented from a booted state and leaves the rest of the list. -/
theorem bootedStepsCompleteAndStayBooted : Obligations.BootedStepsCompleteAndStayBooted := by
  intro s hwf hbooted hdefined
  cases hpending : s.pending with
  | nil => exact ⟨s, unitWaitsWithoutACommand s hwf hpending, hwf, hbooted, hdefined⟩
  | cons x rest =>
    rw [hpending] at hdefined
    obtain ⟨⟨w, i, rfl, hdecode⟩, hrest⟩ := List.forall_mem_cons.1 hdefined
    have hpresented : Booted { s with pending := rest, pos := s.pos + 1 } := hbooted
    obtain ⟨t, hexec, ht, hcfg, hlist⟩ := hpresented.exec i
    have hstep := (stepRunsThePresentedCommand s w rest i hwf hpending hdecode).trans hexec
    exact ⟨t, hstep, hcfg ▸ hwf, ht, hlist ▸ hrest⟩

/-! ### Runs -/

theorem run_succ_of_step {s t : State} (h : step s = .next t) (n : Nat) :
    Sys2Proof.core.run (n + 1) s = Sys2Proof.core.run n t := by
  have hcore : Sys2Proof.core.step s = .next t := h
  simp only [Host.Core.run, hcore]

/-- Settles O55: by induction on the number of steps, each of which keeps the three conditions (O56). -/
theorem bootedRunsNeverStop : Obligations.BootedRunsNeverStop := by
  intro s hwf hbooted hdefined n
  induction n generalizing s with
  | zero => exact ⟨s, rfl⟩
  | succ n ih =>
    obtain ⟨t, hstep, hwf', hbooted', hdefined'⟩ := bootedStepsCompleteAndStayBooted s hwf hbooted hdefined
    obtain ⟨u, hrun⟩ := ih t hwf' hbooted' hdefined'
    exact ⟨u, (run_succ_of_step hstep n).trans hrun⟩

end Sys2Proof.Machine
end

