-- ==== Sys2Proof/Proofs/TransportCosts.lean ====
section
/-! PROOFS. What a completed command costs on the transport (`70_reset_and_hazards.md` R182): the cost of its operation on one
slot, times the slots it acts on. -/

namespace Sys2Proof.Machine

/-! ### The cost of events -/

/-- The write transactions, `TW` bytes and reads among events. -/
def eventCost (evs : List Event) : Nat × Nat × Nat := (evs.countP isOpen, evs.countP isByte, evs.countP isRead)

theorem eventCost_append (e₁ e₂ : List Event) : eventCost (e₁ ++ e₂) = eventCost e₁ + eventCost e₂ := by
  simp only [eventCost, List.countP_append, Prod.mk_add_mk]

/-- A write transaction costs its bytes and no read (R7). -/
theorem eventCost_writeEvents (a : BusAddr) (bs : List Byte) : eventCost (writeEvents a bs) = (1, bs.length, 0) := by
  simp [eventCost, writeEvents, List.countP_cons, List.countP_map, Function.comp_def, isOpen, isByte, isRead]

/-- Chip command bytes cost a transaction each (R80). -/
theorem eventCost_cmdEvents (a : BusAddr) (vs : List Byte) :
    eventCost (cmdEvents a vs) = (vs.length, vs.length, 0) := by
  induction vs with
  | nil => rfl
  | cons v vs ih =>
    rw [cmdEvents_cons, eventCost_append, eventCost_writeEvents, ih]
    simp [Nat.add_comm]

/-! ### States before and after -/

/-- From `s` to `t` the trace grew by events of cost `c`, under the same configuration. -/
def Spends (c : Nat × Nat × Nat) (s t : State) : Prop :=
  t.cfg = s.cfg ∧ ∃ evs, t.trace = s.trace ++ evs ∧ eventCost evs = c

section
variable {c d : Nat × Nat × Nat} {s t u : State} {f : SlotNo → State → SlotResult}

theorem spends_zero (hcfg : t.cfg = s.cfg) (htrace : t.trace = s.trace) : Spends 0 s t :=
  ⟨hcfg, [], by rw [htrace, List.append_nil], rfl⟩

theorem Spends.trans (hst : Spends c s t) (htu : Spends d t u) : Spends (c + d) s u := by
  obtain ⟨hcfg, e₁, htrace, rfl⟩ := hst
  obtain ⟨hcfg', e₂, htrace', rfl⟩ := htu
  exact ⟨hcfg'.trans hcfg, e₁ ++ e₂, by rw [htrace', htrace, List.append_assoc], eventCost_append e₁ e₂⟩

theorem Spends.respond (h : Spends c s t) (r : Resp) : Spends c s (t.respond r) := h

/-! ### The per-slot operations -/

theorem spends_init (addr brightness : Byte) : Relates (Spends (4, 4, 0)) (initSlot addr brightness) := by
  intro k s t c h
  rw [initSlot_eq] at h
  cases h; exact ⟨rfl, _, rfl, eventCost_cmdEvents _ _⟩

theorem spends_sendBytes (v : Byte) (vs : List Byte) :
    Relates (Spends (vs.length + 1, vs.length + 1, 0)) (sendBytes (v :: vs)) := by
  intro k s t c h
  cases hb : s.slots[k].bound with
  | true => rw [sendBytes_of_bound _ hb] at h; cases h; exact ⟨rfl, _, rfl, eventCost_cmdEvents _ _⟩
  | false => rw [sendBytes_of_unbound _ _ hb] at h; cases h

theorem spends_bright (level : Byte) : Relates (Spends (1, 1, 0)) (brightSlot level) := spends_sendBytes _ []

theorem spends_blink (rate : Byte) : Relates (Spends (1, 1, 0)) (blinkSlot rate) := spends_sendBytes _ []

theorem spends_flush : Relates (Spends (1, 17, 0)) flushSlot := by
  intro k s t c h
  cases hb : s.slots[k].bound with
  | true =>
    rw [flushSlot_of_bound hb] at h
    cases h
    exact ⟨rfl, _, rfl, by rw [eventCost_writeEvents, List.length_cons, dataBytes_length]⟩
  | false => rw [flushSlot_of_unbound hb] at h; cases h

theorem spends_scan : Relates (Spends (1, 1, 1)) scanSlot := by
  intro k s t c h
  cases hb : s.slots[k].bound with
  | true => rw [scanSlot_of_bound hb] at h; cases h; exact ⟨rfl, _, rfl, rfl⟩
  | false => rw [scanSlot_of_unbound hb] at h; cases h

/-! ### The delegation schemes: the cost per slot acted on (R66, R111) -/

theorem liveCount_of_live {k : SlotNo} (hp : s.cfg.present[k] = true) : liveCount s (slotByte k) = 1 :=
  if_pos ⟨k, rfl, hp⟩

theorem liveCount_of_dead {a : Byte} (h : DeadSlot s a) : liveCount s a = 0 := by
  refine if_neg ?_
  rintro ⟨k, rfl, hp⟩
  cases (h k (slotByte_toNat k)).symm.trans hp

theorem perSlot_spends (hf : Relates (Spends c) f) {a : Byte} (h : perSlot a f s = .next t) :
    Spends (liveCount s a • c) s t := by
  rcases dead_or_live s a with hdead | ⟨k, rfl, hp⟩
  · rw [perSlot_of_dead (deadSlot_iff.1 hdead)] at h
    cases h
    rw [liveCount_of_dead hdead, zero_nsmul]
    exact spends_zero rfl rfl
  · rw [perSlot_of_live (liveSlot_slotByte hp), finish_eq_next] at h
    obtain ⟨r, u, hu, rfl⟩ := h
    rw [liveCount_of_live hp, one_nsmul]
    exact (hf k s u r hu).respond r

/-- Each slot visited costs the same; the presence it is visited for is that of the start (R16). -/
theorem visit_spends (hf : Relates (Spends c) f) {S : SlotSet} (ks : List SlotNo) : ∀ {any any' : Bool} {s : State},
    visit S f ks any s = .ok (any', t) → Spends ((visited S s ks).length • c) s t := by
  induction ks with
  | nil =>
    intro any any' s h
    cases h
    exact (zero_nsmul c).symm ▸ spends_zero rfl rfl
  | cons k ks ih =>
    intro any any' s h
    cases hk : S[k] && s.present k with
    | false =>
      rw [visit_cons_of_skipped hk] at h
      have hskip : visited S s (k :: ks) = visited S s ks := List.filter_cons_of_neg (ne_true_of_eq_false hk)
      exact hskip ▸ ih h
    | true =>
      cases hu : f k s with
      | error e => rw [visit_cons_of_error hk hu] at h; cases h
      | ok p =>
        obtain ⟨r, u⟩ := p
        rw [visit_cons_of_ok hk hu] at h
        have hfirst : Spends c s u := hf k s u r hu
        have ⟨hcfg, _⟩ := hfirst
        have hrest : visited S u ks = visited S s ks := by rw [visited, hcfg, visited]
        have hvisited : visited S s (k :: ks) = k :: visited S s ks := List.filter_cons_of_pos hk
        rw [hvisited, List.length_cons, succ_nsmul', ← hrest]
        exact hfirst.trans (ih h)

theorem broadcast_spends (hf : Relates (Spends c) f) (h : broadcast f s = .next t) :
    Spends ((presentIn SlotSet.all s).length • c) s t := by
  obtain ⟨any, u, hu, rfl⟩ := broadcast_eq_next.1 h
  exact (visit_spends hf slotOrder hu).respond 0

theorem scanSet_spends (hf : Relates (Spends c) f) {S : SlotSet} (h : scanSet S f s = .next t) :
    Spends ((presentIn S s).length • c) s t := by
  obtain ⟨any, u, hu, rfl⟩ := scanSet_eq_next.1 h
  exact (visit_spends hf slotOrder hu).respond _

end

/-! ### `exec` -/

/-- A command that reaches no slot's transport, and is no `D_INIT`, costs nothing (R48). -/
theorem exec_spends_zero {i : Instr} {s t : State} (h : exec i s = .next t) (hreach : ∀ k, ¬ Reaches i s k)
    (hinit : ∀ a b c, i ≠ .dInit a b c) : Spends 0 s t := by
  obtain ⟨hcfg, -⟩ := exec_keeps h
  obtain ⟨htrace, -⟩ := onlyTransportCommandsEmit i s t hreach hinit h
  exact spends_zero hcfg htrace

/-- What a completed command costs: the table of R182, row by row. -/
theorem exec_spends {i : Instr} {s t : State} (h : exec i s = .next t) : Spends (transportCost i s) s t := by
  cases i with
  | dInit a b c => simpa [transportCost, Nat.mul_comm] using perSlot_spends (spends_init b c) h
  | dBright a b => simpa [transportCost] using perSlot_spends (spends_bright b) h
  | dBlink a b => simpa [transportCost] using perSlot_spends (spends_blink b) h
  | dFlush a => simpa [transportCost, Nat.mul_comm] using perSlot_spends spends_flush h
  | dScan a => simpa [transportCost] using perSlot_spends spends_scan h
  | gBright b => simpa [transportCost] using broadcast_spends (spends_bright b) h
  | gBlink b => simpa [transportCost] using broadcast_spends (spends_blink b) h
  | gFlush => simpa [transportCost, Nat.mul_comm] using broadcast_spends spends_flush h
  | gScan | gScanP | gScanS => simpa [transportCost] using scanSet_spends spends_scan h
  | dClear a | dIsLed a b | dSetLed a b | dClrLed a b | dIsPressed a b | dWasPressed a b | dJustPressed a b
  | dJustReleased a b | gClear | gIsLed b | gSetLed b | gClrLed b | gIsPressed b | gWasPressed b | gJustPressed b
  | gJustReleased b | xy2i x y | i2xy b => exact exec_spends_zero h (fun _ => id) nofun

/-- Settles O51: the cost of a command is the cost of the events it appends. -/
theorem transportCostsAreTheTable : Obligations.TransportCostsAreTheTable := by
  intro i s t h
  obtain ⟨-, hevents⟩ := exec_spends h
  exact hevents

end Sys2Proof.Machine
end
